-- ==== Sys2Proof/Word.lean ====
section
/-!
DEFINITION. The word types of the framer (00_scope.md R8: "A byte is 8 bits and is always read as an
unsigned integer 0 to 255").
-/

namespace Sys2Proof

/-- A byte (00_scope.md R8). -/
abbrev Byte := BitVec 8

/-- The width of the `index` register (10_state.md R14). -/
abbrev Nibble := BitVec 4

/-- The width of the `state` register (10_state.md R11). -/
abbrev StateCode := BitVec 3

end Sys2Proof
end

