-- ==== Sys2Proof/Config.lean ====
section
/-!
DEFINITION. The parameters of the framer: the four constants of 00_scope.md R5, as configuration fields
whose defaults are this hardware's values, and the one OPEN value the source's example Dispatcher uses
(00_scope.md R6, D17). Log entries 12 and 13.
-/

namespace Sys2Proof

/-- The four numeric constants of 00_scope.md R5 with this hardware's values as defaults (D2). -/
structure Params where
  /-- `START_MARKER`: "fixed sentinel byte, constant value (0xAA), identifies frame start". -/
  startMarker : Byte := 0xAA#8
  /-- `MAX_PAYLOAD`: the largest legal `payload_length`, the capacity of the payload buffer. -/
  maxPayload : Nat := 10
  /-- `ACK`: the response byte on checksum success. -/
  ack : Byte := 0x06#8
  /-- `NACK`: the response byte on checksum failure or invalid length. -/
  nack : Byte := 0x15#8
  deriving DecidableEq, Repr

/-- This hardware's parameters. -/
def Config.params : Params := {}

def Config.startMarker : Byte := Config.params.startMarker

def Config.maxPayload : Nat := Config.params.maxPayload

def Config.ack : Byte := Config.params.ack

def Config.nack : Byte := Config.params.nack

/-- `REPLY_CMD_ID`: the command id of a getter's reply frame. OPEN (00_scope.md R6, 42_dispatch.md R96,
D17): no value. Only the source's example Dispatcher uses it. -/
opaque Config.replyCmdId : Byte

end Sys2Proof
end

