-- ==== Sys2Proof/Machine/State.lean ====
section
/-!
DEFINITION. The state of the framer as plain data: the decoder's registers (10_state.md R10), the channels
and collaborators around it (45_interfaces.md R121 to R124) and the port registers of the port-level
binding (45_interfaces.md R126 to R128); the reasons a step can stop; the state after reset.
-/

namespace Sys2Proof.Machine

/-- The values of the 3-bit register `state` (10_state.md R11): five named states, and the three
unrecognised codes 5 to 7. -/
inductive Phase where
  | waitStart
  | readCommand
  | readLength
  | readPayload
  | readChecksum
  | code5
  | code6
  | code7
  deriving DecidableEq, Repr

/-- The payload buffer (20_memory.md R30): cells in strictly rising address order, none equal to what an
unlisted address reads as (log 5). -/
abbrev Memory := List Host.Cell

/-- The decoder's registers (10_state.md R10). -/
structure Decoder where
  /-- `state` (R11): what the decoder is waiting for. -/
  state : Phase
  /-- `start_marker` (R12). -/
  startMarker : Byte
  /-- `command_id` (R13). -/
  commandId : Byte
  /-- `payload_length` (R13). -/
  payloadLength : Byte
  /-- `index` (R14): payload bytes stored so far, and the write address. -/
  index : Nibble
  /-- `payload[0..9]` (R15). -/
  payload : Memory
  deriving DecidableEq, Repr

/-- A request to the Frame Encoder (42_dispatch.md R96 `EncodeRequest`, 43_encoder.md R100). -/
structure EncodeRequest where
  cmd : Byte
  len : Byte
  data : List Byte
  deriving DecidableEq, Repr

/-- The output events (00_scope.md R8, 45_interfaces.md R120). -/
inductive Event where
  /-- `Resp(b)`: a response byte. -/
  | resp (b : Byte)
  /-- `Dispatch(c, n, p)`: a verified packet handed to the Command Dispatcher. -/
  | dispatch (c n : Byte) (p : List Byte)
  /-- `Tx(f)`: an encoded frame. -/
  | tx (f : List Byte)
  deriving DecidableEq, Repr

/-- What the outside hands to the framer in one transaction (45_interfaces.md R123, R124). -/
inductive Delivery where
  /-- One byte from the byte source (40_decoder.md R65). -/
  | byte (b : Byte)
  /-- Consecutive bytes of the stream, delivered one after the other in one model step: a row of format
  FRAME, or RAW (log 6). -/
  | bytes (bs : List Byte)
  /-- A response byte listed as an event of its own (95_test_vectors.md V60 to V62, log 7). -/
  | response (b : Byte)
  /-- An `ENCODE` requested from outside between two steps (43_encoder.md R106). -/
  | request (r : EncodeRequest)
  /-- The reset event (70_reset_and_hazards.md R176). -/
  | reset
  deriving DecidableEq, Repr

/-- The input pins at one rising clock edge (45_interfaces.md R125 to R128), and what the implementation
does with the cycle counts the spec leaves open (log 10): whether it presents a transmit byte, raises a
new dispatch, grants an encode request in this cycle. -/
structure Pins where
  rst : Bool
  rxValid : Bool
  rxData : Byte
  txReady : Bool
  dispDone : Bool
  encValid : Bool
  encCmd : Byte
  encLen : Byte
  encPayload : BitVec 80
  /-- Open cycle count: `tx_valid` may be 1 in this cycle. -/
  txGo : Bool
  /-- Open cycle count: a dispatch not raised yet may be raised in this cycle. -/
  dispGo : Bool
  /-- Open cycle count: `enc_ready` may be 1 in this cycle. -/
  encGo : Bool
  deriving DecidableEq, Repr

/-- One entry of the input queue: a transaction, or a clock edge at port level. -/
inductive Stimulus where
  | deliver (d : Delivery)
  | cycle (p : Pins)
  deriving DecidableEq, Repr

/-- The port registers (45_interfaces.md R126 to R128; the spec's binding, D13). -/
structure Port where
  /-- What is left of the contiguous sequence the transmit port is presenting. -/
  tx : List Byte
  /-- That sequence is a response of a decoder step. -/
  txOfStep : Bool
  /-- The last decoder step's outputs that have not been accepted yet, in order. -/
  out : List Event
  /-- `disp_valid` has been raised for the dispatch at the head of `out`. -/
  dispShown : Bool
  deriving DecidableEq, Repr

/-- The whole machine. -/
structure State where
  /-- The decoder's registers (R10). -/
  dec : Decoder
  /-- What the outside will do next, the front first (R34, R115; log 2). -/
  queue : List Stimulus
  /-- The Dispatcher: the requests it makes during each coming dispatch (R93, R96; log 3). -/
  replies : List (List EncodeRequest)
  /-- `SinkSeq`: the bytes the byte sink has taken (R121). -/
  sink : List Byte
  /-- The output events in the order of their emission (R121, R123). -/
  log : List Event
  /-- The port registers (R126 to R128). -/
  port : Port
  deriving DecidableEq, Repr

/-- What stops the machine with a fault. -/
inductive Fault where
  /-- An access to the payload buffer outside addresses 0 to `MAX_PAYLOAD - 1` (20_memory.md R33: the spec
  gives no behaviour for one). Raised by a payload store. Safe: the machine stops; no step reaches it. -/
  | payloadAddress (addr : Nat)
  deriving DecidableEq, Repr

/-- What the model gives no next state for. -/
inductive Refusal where
  /-- An instruction without a meaning yet: raised by `exec`'s arms only. Safe: the machine stops. -/
  | notModelled (mnemonic : String)
  /-- A STEP row executed in a state its encoding does not name (30_encoding.md R51: the row is the pair of
  state and byte). Raised by the STEP rows' meanings, never by `step`. Safe: the machine stops. -/
  | rowNotSelected
  /-- `ENCODE` with `len > MAX_PAYLOAD` (43_encoder.md R104: "a model refuses"). Raised by ENCODE, by a
  dispatch whose Dispatcher requests one, and by the encoder port. Safe: the machine stops. -/
  | encodeLengthOverMax
  /-- `ENCODE` with fewer than `len` data bytes (43_encoder.md R105: "not a request of this operation at
  all"). Raised as the one above. Safe: the machine stops. -/
  | encodeDataShort
  /-- FRAME or BADFRAME outside its "defined when" (30_encoding.md R58). Raised by their meanings. Safe. -/
  | pseudoUndefined
  /-- A response byte that is neither `ACK` nor `NACK` (30_encoding.md R46: "two legal values"). Raised by
  `step` through the decoder's rejection of it. Safe: the machine stops. -/
  | responseByteIllegal
  /-- A transaction while a decoder step's outputs are still being handed over at the ports
  (70_reset_and_hazards.md R181: "the model has no transition for it"; R176 for reset, 45_interfaces.md R124
  for a request). Raised by `step`. Safe: the machine stops. -/
  | outputsPending
  /-- Reset asserted while a step's outputs are still being handed over (70_reset_and_hazards.md R176: "is
  not modelled"). Raised by a clock edge. Safe: the machine stops. -/
  | resetWhileOutputsPending
  deriving DecidableEq, Repr

/-- The outcome of one instruction or one step. -/
abbrev Result := Host.Outcome State Fault Refusal

/-- `ResetState` of the decoder (10_state.md R22). -/
def Decoder.reset : Decoder :=
  { state := .waitStart, startMarker := 0#8, commandId := 0#8, payloadLength := 0#8, index := 0#4, payload := [] }

/-- No sequence in transmission, no output pending. -/
def Port.idle : Port := { tx := [], txOfStep := false, out := [], dispShown := false }

/-- The machine right after reset (10_state.md R22, 70_reset_and_hazards.md R175), before the outside has
done anything. -/
def State.reset : State :=
  { dec := Decoder.reset, queue := [], replies := [], sink := [], log := [], port := Port.idle }

end Sys2Proof.Machine
end

