-- ==== Sys2Proof/Machine/Operands.lean ====
section
/-!
DEFINITION. The operand forms: the state code of a STEP key (10_state.md R11), the payload buffer's
accesses (20_memory.md R31 to R33), the payload prefix that the checksum and the dispatch read (R32), the
Checksum (41_checksum.md R85) and the frame bytes (30_encoding.md R45).
-/

namespace Sys2Proof.Machine

/-! ### The state register's encoding -/

/-- The 3-bit code of a state (R11). -/
def Phase.code : Phase → StateCode
  | .waitStart => 0#3
  | .readCommand => 1#3
  | .readLength => 2#3
  | .readPayload => 3#3
  | .readChecksum => 4#3
  | .code5 => 5#3
  | .code6 => 6#3
  | .code7 => 7#3

/-- The state a 3-bit code stands for (R11). -/
def Phase.ofCode (c : StateCode) : Phase :=
  match c.toNat with
  | 0 => .waitStart
  | 1 => .readCommand
  | 2 => .readLength
  | 3 => .readPayload
  | 4 => .readChecksum
  | 5 => .code5
  | 6 => .code6
  | _ => .code7

/-! ### The payload buffer -/

/-- What an address with no cell reads as: the buffer's reset contents (R22). -/
def Memory.unlisted : Byte := 0#8

/-- The byte at an address of the buffer. -/
def Memory.readByte : Memory → Nat → Byte
  | [], _ => Memory.unlisted
  | (k, v) :: m, a => if k = a then v else Memory.readByte m a

/-- The buffer with one byte replaced, in canonical form again. -/
def Memory.writeByte : Memory → Nat → Byte → Memory
  | [], a, v => if v = Memory.unlisted then [] else [(a, v)]
  | (k, w) :: m, a, v =>
    if a < k then (if v = Memory.unlisted then (k, w) :: m else (a, v) :: (k, w) :: m)
    else if a = k then (if v = Memory.unlisted then m else (a, v) :: m)
    else (k, w) :: Memory.writeByte m a v

/-- Every listed address is above `lo`, inside the buffer, and in strictly rising order; no listed byte is
what an unlisted address reads as. -/
def Memory.wfFrom : Nat → Memory → Bool
  | _, [] => true
  | lo, (k, v) :: m =>
    decide (lo ≤ k) && decide (k < Config.maxPayload) && !(v == Memory.unlisted) && Memory.wfFrom (k + 1) m

/-- The canonical form of the payload buffer (log 5). -/
def Memory.wf (m : Memory) : Bool := Memory.wfFrom 0 m

/-- `MemRead(a, 1)` (00_scope.md R8, 20_memory.md R32, R33): defined for addresses inside the buffer. -/
def Memory.memRead (m : Memory) (a : Nat) : Option Byte :=
  if a < Config.maxPayload then some (Memory.readByte m a) else none

/-- `MemWrite(a, 1, v)` (00_scope.md R8, 20_memory.md R31, R33): defined for addresses inside the buffer. -/
def Memory.memWrite (m : Memory) (a : Nat) (v : Byte) : Option Memory :=
  if a < Config.maxPayload then some (Memory.writeByte m a v) else none

/-! ### Reading the packet -/

/-- `payload[0..n)`. -/
def Memory.bytesBelow (m : Memory) (n : Nat) : List Byte :=
  (List.range n).map (Memory.readByte m)

/-- `payload[0..payload_length)` (R32). -/
def Decoder.payloadInUse (d : Decoder) : List Byte :=
  Memory.bytesBelow d.payload d.payloadLength.toNat

/-! ### Checksum and frame -/

/-- The sum of bytes as unsigned integers. -/
def byteSum (p : List Byte) : Nat := (p.map BitVec.toNat).sum

/-- `Checksum(sm, cmd, n, p)` (41_checksum.md R85): the exact sum, its low 8 bits kept. -/
def checksum (sm cmd n : Byte) (p : List Byte) : Byte :=
  BitVec.ofNat 8 (sm.toNat + cmd.toNat + n.toNat + byteSum p)

/-- The checksum of the packet in the registers (40_decoder.md R74, R75). -/
def Decoder.checksum (d : Decoder) : Byte :=
  Machine.checksum d.startMarker d.commandId d.payloadLength d.payloadInUse

/-- The length byte of a payload. -/
def lengthByte (p : List Byte) : Byte := BitVec.ofNat 8 p.length

/-- The checksum byte of the frame of a command and a payload. -/
def frameChecksum (cmd : Byte) (p : List Byte) : Byte :=
  checksum Config.startMarker cmd (lengthByte p) p

/-- The bytes of a frame with a given last byte (30_encoding.md R45, R58). -/
def frameBytes (cmd : Byte) (p : List Byte) (k : Byte) : List Byte :=
  Config.startMarker :: cmd :: lengthByte p :: (p ++ [k])

/-- `Encode(cmd, p)` (43_encoder.md R100). -/
def encodeFrame (cmd : Byte) (p : List Byte) : List Byte :=
  frameBytes cmd p (frameChecksum cmd p)

/-- `WellFormed(f)` (30_encoding.md R50). -/
def wellFormedFrame (f : List Byte) : Bool :=
  match f with
  | m :: c :: n :: rest =>
    m == Config.startMarker && decide (n.toNat ≤ Config.maxPayload) && rest.length == n.toNat + 1 &&
      rest.getLastD 0#8 == BitVec.ofNat 8 (byteSum (m :: c :: n :: rest.take n.toNat))
  | _ => false

/-- The payload of an encode request: `data[0..len)`; the bytes beyond are ignored (R100, R105). -/
def EncodeRequest.payload (r : EncodeRequest) : List Byte := r.data.take r.len.toNat

/-- The frame of an encode request (R100). -/
def EncodeRequest.frame (r : EncodeRequest) : List Byte := encodeFrame r.cmd r.payload

end Sys2Proof.Machine
end

