-- ==== Sys2Proof/Syntax.lean ====
section
/-!
DEFINITION. The instructions: one constructor per row of spec/opcode_table.json (00_scope.md R7).
STEP rows are a delivered byte in a decoder state, FRAME rows the frame of each payload length, ACK and
NACK the response bytes, ENCODE the encoder's request, RESET the reset event, FRAME, BADFRAME and RAW the
notation of 30_encoding.md R58.
-/

namespace Sys2Proof

/-- One constructor per row of the opcode table, in the table's order. An operand is a field the row's
encoding leaves free; a field the row fixes is no operand. -/
inductive Instr where
  /-- WS.START (R66): the start marker in `WaitStart`. -/
  | wsStart
  /-- WS.SKIP (R67): any other byte in `WaitStart`. -/
  | wsSkip (b : Byte)
  /-- RC.CMD (R68): the command byte. -/
  | rcCmd (c : Byte)
  /-- RL.ZERO (R70): length byte zero. -/
  | rlZero
  /-- RL.LEN (R71): length byte 1 to `MAX_PAYLOAD`. -/
  | rlLen (l : Byte)
  /-- RL.OVER (R69): length byte above `MAX_PAYLOAD`. -/
  | rlOver (b : Byte)
  /-- RP.MORE (R72): a payload byte, more to come. -/
  | rpMore (p : Byte)
  /-- RP.LAST (R73): the last payload byte. -/
  | rpLast (p : Byte)
  /-- RK.OK (R74): the matching checksum byte. -/
  | rkOk (k : Byte)
  /-- RK.BAD (R75): a checksum byte that does not match. -/
  | rkBad (k : Byte)
  /-- XX.RESET (R76), row "state 5". -/
  | xxResetState5 (b : Byte)
  /-- XX.RESET (R76), row "states 6 and 7": `lo` is bit 8 of the key. -/
  | xxResetState67 (lo : BitVec 1) (b : Byte)
  /-- XX.RESET (R76), row "malformed registers": `st` is bits 10 to 8 of the key, 3 or 4. -/
  | xxResetMalformed (st : StateCode) (b : Byte)
  /-- FRAME.L0 (R45): command id, no payload byte, checksum byte. -/
  | frameL0 (c k : Byte)
  /-- FRAME.L1 (R45): command id, 1 payload byte, checksum byte. -/
  | frameL1 (c p0 k : Byte)
  /-- FRAME.L2 (R45): command id, 2 payload bytes, checksum byte. -/
  | frameL2 (c p0 p1 k : Byte)
  /-- FRAME.L3 (R45): command id, 3 payload bytes, checksum byte. -/
  | frameL3 (c p0 p1 p2 k : Byte)
  /-- FRAME.L4 (R45): command id, 4 payload bytes, checksum byte. -/
  | frameL4 (c p0 p1 p2 p3 k : Byte)
  /-- FRAME.L5 (R45): command id, 5 payload bytes, checksum byte. -/
  | frameL5 (c p0 p1 p2 p3 p4 k : Byte)
  /-- FRAME.L6 (R45): command id, 6 payload bytes, checksum byte. -/
  | frameL6 (c p0 p1 p2 p3 p4 p5 k : Byte)
  /-- FRAME.L7 (R45): command id, 7 payload bytes, checksum byte. -/
  | frameL7 (c p0 p1 p2 p3 p4 p5 p6 k : Byte)
  /-- FRAME.L8 (R45): command id, 8 payload bytes, checksum byte. -/
  | frameL8 (c p0 p1 p2 p3 p4 p5 p6 p7 k : Byte)
  /-- FRAME.L9 (R45): command id, 9 payload bytes, checksum byte. -/
  | frameL9 (c p0 p1 p2 p3 p4 p5 p6 p7 p8 k : Byte)
  /-- FRAME.L10 (R45): command id, 10 payload bytes, checksum byte. -/
  | frameL10 (c p0 p1 p2 p3 p4 p5 p6 p7 p8 p9 k : Byte)
  /-- ACK (R110): the response byte on success. -/
  | ack
  /-- NACK (R111): the response byte on rejection. -/
  | nack
  /-- ENCODE (R100): build one frame from the first `len` bytes of `data`. -/
  | encode (cmd len : Byte) (data : List Byte)
  /-- RESET (R175, R176): the reset event. -/
  | reset
  /-- FRAME c, p (R58): the well-formed frame of command `c` and payload `p`. -/
  | frame (c : Byte) (p : List Byte)
  /-- BADFRAME c, p, k (R58): the same with the last byte replaced by `k`. -/
  | badframe (c : Byte) (p : List Byte) (k : Byte)
  /-- RAW bs (R58): the listed bytes. -/
  | raw (bs : List Byte)
  deriving DecidableEq, Repr

end Sys2Proof
end

