-- ==== Sys2Proof/Machine/Flags.lean ====
section
/-!
DEFINITION. The framer has no flags (10_state.md R19). What a processor would keep in flags is here a
condition computed and consumed within one step (41_checksum.md R87): the comparisons, `Malformed`
(40_decoder.md R76), and the condition of each STEP row (30_encoding.md R51).
-/

namespace Sys2Proof.Machine

/-- `b == START_MARKER`. -/
def isStartMarker (b : Byte) : Bool := b == Config.startMarker

/-- `b > MAX_PAYLOAD`, unsigned (R49, R69). -/
def isOverLength (b : Byte) : Bool := decide (Config.maxPayload < b.toNat)

/-- `index + 1 < payload_length`, over the integers (R72). -/
def Decoder.moreToCome (d : Decoder) : Bool := decide (d.index.toNat + 1 < d.payloadLength.toNat)

/-- `index + 1 == payload_length`, over the integers (R73). -/
def Decoder.lastToCome (d : Decoder) : Bool := decide (d.index.toNat + 1 = d.payloadLength.toNat)

/-- The second and third clauses of `Malformed` (R76): register combinations that no transition produces. -/
def Decoder.malformedRegisters (d : Decoder) : Bool :=
  match d.state with
  | .readPayload => isOverLength d.payloadLength || decide (d.payloadLength.toNat ≤ d.index.toNat)
  | .readChecksum => isOverLength d.payloadLength
  | .waitStart | .readCommand | .readLength | .code5 | .code6 | .code7 => false

/-- `Malformed(s)` (R76). -/
def Decoder.malformed (d : Decoder) : Bool :=
  match d.state with
  | .code5 | .code6 | .code7 => true
  | .waitStart | .readCommand | .readLength | .readPayload | .readChecksum => d.malformedRegisters

/-- The condition under which a STEP row is the instruction of the registers `d` (30_encoding.md R51;
40_decoder.md R66 to R76, "Encoding"). Rows of other formats are not selected by the decoder. -/
def rowSelected (i : Instr) (d : Decoder) : Bool :=
  match i with
  | .wsStart => d.state == .waitStart
  | .wsSkip b => d.state == .waitStart && !isStartMarker b
  | .rcCmd _ => d.state == .readCommand
  | .rlZero => d.state == .readLength
  | .rlLen l => d.state == .readLength && !(l == 0#8) && !isOverLength l
  | .rlOver b => d.state == .readLength && isOverLength b
  | .rpMore _ => d.state == .readPayload && !d.malformed && d.moreToCome
  | .rpLast _ => d.state == .readPayload && !d.malformed && d.lastToCome
  | .rkOk k => d.state == .readChecksum && !d.malformed && k == d.checksum
  | .rkBad k => d.state == .readChecksum && !d.malformed && !(k == d.checksum)
  | .xxResetState5 _ => d.state == .code5
  | .xxResetState67 lo _ => d.state == (if lo = 0#1 then .code6 else .code7)
  | .xxResetMalformed st _ => d.state.code == st && d.malformedRegisters
  | .frameL0 .. | .frameL1 .. | .frameL2 .. | .frameL3 .. | .frameL4 .. | .frameL5 .. | .frameL6 ..
  | .frameL7 .. | .frameL8 .. | .frameL9 .. | .frameL10 .. => false
  | .ack | .nack | .encode .. | .reset | .frame .. | .badframe .. | .raw .. => false

end Sys2Proof.Machine
end

