-- ==== Sys2Proof/WellFormed.lean ====
section
/-!
DEFINITION. When an instruction is well formed: each operand has a value its row allows
(spec/opcode_table.json, "condition"; 30_encoding.md R50, R57, R58).
-/

namespace Sys2Proof

/-- The condition a row puts on its own operands. A STEP row's condition on the registers is
`Machine.rowSelected`. A FRAME row is well formed only if its last byte is the checksum (R50). -/
def Instr.wf (i : Instr) : Bool :=
  match i with
  | .wsStart => true
  | .wsSkip b => !Machine.isStartMarker b
  | .rcCmd _ => true
  | .rlZero => true
  | .rlLen l => !(l == 0#8) && !Machine.isOverLength l
  | .rlOver b => Machine.isOverLength b
  | .rpMore _ => true
  | .rpLast _ => true
  | .rkOk _ => true
  | .rkBad _ => true
  | .xxResetState5 _ => true
  | .xxResetState67 _ _ => true
  | .xxResetMalformed st _ => st == 3#3 || st == 4#3
  | .frameL0 c k => k == Machine.frameChecksum c []
  | .frameL1 c p0 k => k == Machine.frameChecksum c [p0]
  | .frameL2 c p0 p1 k => k == Machine.frameChecksum c [p0, p1]
  | .frameL3 c p0 p1 p2 k => k == Machine.frameChecksum c [p0, p1, p2]
  | .frameL4 c p0 p1 p2 p3 k => k == Machine.frameChecksum c [p0, p1, p2, p3]
  | .frameL5 c p0 p1 p2 p3 p4 k => k == Machine.frameChecksum c [p0, p1, p2, p3, p4]
  | .frameL6 c p0 p1 p2 p3 p4 p5 k => k == Machine.frameChecksum c [p0, p1, p2, p3, p4, p5]
  | .frameL7 c p0 p1 p2 p3 p4 p5 p6 k => k == Machine.frameChecksum c [p0, p1, p2, p3, p4, p5, p6]
  | .frameL8 c p0 p1 p2 p3 p4 p5 p6 p7 k => k == Machine.frameChecksum c [p0, p1, p2, p3, p4, p5, p6, p7]
  | .frameL9 c p0 p1 p2 p3 p4 p5 p6 p7 p8 k => k == Machine.frameChecksum c [p0, p1, p2, p3, p4, p5, p6, p7, p8]
  | .frameL10 c p0 p1 p2 p3 p4 p5 p6 p7 p8 p9 k => k == Machine.frameChecksum c [p0, p1, p2, p3, p4, p5, p6, p7, p8, p9]
  | .ack => true
  | .nack => true
  | .encode _ len data => !Machine.isOverLength len && decide (len.toNat ≤ data.length)
  | .reset => true
  | .frame _ p => decide (p.length ≤ Config.maxPayload)
  | .badframe c p k => decide (p.length ≤ Config.maxPayload) && !(k == Machine.frameChecksum c p)
  | .raw _ => true

end Sys2Proof
end

