-- ==== Sys2Proof/Decode.lean ====
section
/-!
DEFINITION. Decoding and encoding. A STEP row is keyed on the 11-bit value `state ++ byte` and on the
registers (30_encoding.md R51); a FRAME row on its bytes, first byte leftmost (R45); a response on its byte
(R46). Decoding is total and rejects by name; then the encoder, the opcode table's own numbers, and the
two functions the host asks about a table word (log 14).
-/

namespace Sys2Proof

open Machine (Decoder Delivery EncodeRequest Phase)

/-- The encoded forms of the opcode table's formats. -/
inductive Code where
  /-- Format STEP: bits 10 to 8 the `state` register, bits 7 to 0 the delivered byte. -/
  | key (k : BitVec 11)
  /-- Format FRAME, and the expansions of the pseudo-instructions: bytes, first byte first. -/
  | bytes (bs : List Byte)
  /-- Format RESPONSE. -/
  | response (b : Byte)
  /-- Format REQUEST: operands, not a bit pattern. -/
  | request (r : EncodeRequest)
  /-- Format EVENT: the reset input. -/
  | event
  deriving DecidableEq, Repr

/-- Why a code is no instruction. -/
inductive DecodeError where
  /-- A response byte other than `ACK` and `NACK` (R46). -/
  | responseByteIllegal (b : Byte)
  deriving DecidableEq, Repr

/-! ### Decoding -/

/-- The one STEP row the registers select for a delivered byte (R51, in the order of the table's
priorities: `Malformed` first). -/
def decodeStep (d : Decoder) (b : Byte) : Instr :=
  match d.state with
  | .waitStart => if Machine.isStartMarker b then .wsStart else .wsSkip b
  | .readCommand => .rcCmd b
  | .readLength => if b = 0#8 then .rlZero else if Machine.isOverLength b then .rlOver b else .rlLen b
  | .readPayload =>
    if d.malformedRegisters then .xxResetMalformed 3#3 b
    else if d.moreToCome then .rpMore b else .rpLast b
  | .readChecksum =>
    if d.malformedRegisters then .xxResetMalformed 4#3 b
    else if b = d.checksum then .rkOk b else .rkBad b
  | .code5 => .xxResetState5 b
  | .code6 => .xxResetState67 0#1 b
  | .code7 => .xxResetState67 1#1 b

/-- The `state` field of a STEP key. -/
def keyState (k : BitVec 11) : StateCode := k.extractLsb' 8 3

/-- The byte field of a STEP key. -/
def keyByte (k : BitVec 11) : Byte := k.extractLsb' 0 8

/-- The row of a STEP key, the registers other than `state` taken from `d`. -/
def decodeKey (d : Decoder) (k : BitVec 11) : Instr :=
  decodeStep { d with state := Phase.ofCode (keyState k) } (keyByte k)

/-- The FRAME row of a command, a payload and a last byte, by the payload's length. -/
def frameRow (c : Byte) (p : List Byte) (k : Byte) : Option Instr :=
  match p with
  | [] => some (.frameL0 c k)
  | [p0] => some (.frameL1 c p0 k)
  | [p0, p1] => some (.frameL2 c p0 p1 k)
  | [p0, p1, p2] => some (.frameL3 c p0 p1 p2 k)
  | [p0, p1, p2, p3] => some (.frameL4 c p0 p1 p2 p3 k)
  | [p0, p1, p2, p3, p4] => some (.frameL5 c p0 p1 p2 p3 p4 k)
  | [p0, p1, p2, p3, p4, p5] => some (.frameL6 c p0 p1 p2 p3 p4 p5 k)
  | [p0, p1, p2, p3, p4, p5, p6] => some (.frameL7 c p0 p1 p2 p3 p4 p5 p6 k)
  | [p0, p1, p2, p3, p4, p5, p6, p7] => some (.frameL8 c p0 p1 p2 p3 p4 p5 p6 p7 k)
  | [p0, p1, p2, p3, p4, p5, p6, p7, p8] => some (.frameL9 c p0 p1 p2 p3 p4 p5 p6 p7 p8 k)
  | [p0, p1, p2, p3, p4, p5, p6, p7, p8, p9] => some (.frameL10 c p0 p1 p2 p3 p4 p5 p6 p7 p8 p9 k)
  | _ => none

/-- The FRAME row whose pattern consecutive bytes match: the marker, any command, a length byte up to
`MAX_PAYLOAD`, that many payload bytes and one more (R45). The last byte need not be the checksum: the
rows' patterns leave it free (log 6). -/
def decodeFrame (bs : List Byte) : Option Instr :=
  match bs with
  | m :: c :: n :: rest =>
    if m = Config.startMarker ∧ n.toNat ≤ Config.maxPayload ∧ rest.length = n.toNat + 1 then
      frameRow c (rest.take n.toNat) (rest.getLastD 0#8)
    else none
  | _ => none

/-- Consecutive bytes: a FRAME row where one matches, else RAW. -/
def decodeBytes (bs : List Byte) : Instr := (decodeFrame bs).getD (.raw bs)

/-- A response byte (R46). -/
def decodeResponse (b : Byte) : Except DecodeError Instr :=
  if b = Config.ack then .ok .ack
  else if b = Config.nack then .ok .nack
  else .error (.responseByteIllegal b)

/-- The instruction of a code, in the context of the decoder's registers. -/
def decodeCode (d : Decoder) (c : Code) : Except DecodeError Instr :=
  match c with
  | .key k => .ok (decodeKey d k)
  | .bytes bs => .ok (decodeBytes bs)
  | .response b => decodeResponse b
  | .request r => .ok (.encode r.cmd r.len r.data)
  | .event => .ok .reset

/-- The code a delivery presents: a byte's key is formed with the `state` register (R51). -/
def deliveryCode (d : Decoder) (x : Delivery) : Code :=
  match x with
  | .byte b => .key (d.state.code ++ b)
  | .bytes bs => .bytes bs
  | .response b => .response b
  | .request r => .request r
  | .reset => .event

/-- The instruction a delivery is, in the present registers. -/
def decode (d : Decoder) (x : Delivery) : Except DecodeError Instr := decodeCode d (deliveryCode d x)

/-! ### Encoding -/

/-- The code of an instruction, from the table's "encoding" column. -/
def encode (i : Instr) : Code :=
  match i with
  | .wsStart => .key (0#3 ++ Config.startMarker)
  | .wsSkip b => .key (0#3 ++ b)
  | .rcCmd c => .key (1#3 ++ c)
  | .rlZero => .key (2#3 ++ 0#8)
  | .rlLen l => .key (2#3 ++ l)
  | .rlOver b => .key (2#3 ++ b)
  | .rpMore p => .key (3#3 ++ p)
  | .rpLast p => .key (3#3 ++ p)
  | .rkOk k => .key (4#3 ++ k)
  | .rkBad k => .key (4#3 ++ k)
  | .xxResetState5 b => .key (5#3 ++ b)
  | .xxResetState67 lo b => .key ((3#2 ++ lo) ++ b)
  | .xxResetMalformed st b => .key (st ++ b)
  | .frameL0 c k => .bytes [Config.startMarker, c, 0#8, k]
  | .frameL1 c p0 k => .bytes [Config.startMarker, c, 1#8, p0, k]
  | .frameL2 c p0 p1 k => .bytes [Config.startMarker, c, 2#8, p0, p1, k]
  | .frameL3 c p0 p1 p2 k => .bytes [Config.startMarker, c, 3#8, p0, p1, p2, k]
  | .frameL4 c p0 p1 p2 p3 k => .bytes [Config.startMarker, c, 4#8, p0, p1, p2, p3, k]
  | .frameL5 c p0 p1 p2 p3 p4 k => .bytes [Config.startMarker, c, 5#8, p0, p1, p2, p3, p4, k]
  | .frameL6 c p0 p1 p2 p3 p4 p5 k => .bytes [Config.startMarker, c, 6#8, p0, p1, p2, p3, p4, p5, k]
  | .frameL7 c p0 p1 p2 p3 p4 p5 p6 k => .bytes [Config.startMarker, c, 7#8, p0, p1, p2, p3, p4, p5, p6, k]
  | .frameL8 c p0 p1 p2 p3 p4 p5 p6 p7 k => .bytes [Config.startMarker, c, 8#8, p0, p1, p2, p3, p4, p5, p6, p7, k]
  | .frameL9 c p0 p1 p2 p3 p4 p5 p6 p7 p8 k => .bytes [Config.startMarker, c, 9#8, p0, p1, p2, p3, p4, p5, p6, p7, p8, k]
  | .frameL10 c p0 p1 p2 p3 p4 p5 p6 p7 p8 p9 k => .bytes [Config.startMarker, c, 10#8, p0, p1, p2, p3, p4, p5, p6, p7, p8, p9, k]
  | .ack => .response Config.ack
  | .nack => .response Config.nack
  | .encode cmd len data => .request ⟨cmd, len, data⟩
  | .reset => .event
  | .frame c p => .bytes (Machine.encodeFrame c p)
  | .badframe c p k => .bytes (Machine.frameBytes c p k)
  | .raw bs => .bytes bs

/-- A code as the outside delivers it: a key's `state` bits are the decoder's own register. -/
def Code.delivery (c : Code) : Delivery :=
  match c with
  | .key k => .byte (keyByte k)
  | .bytes bs => .bytes bs
  | .response b => .response b
  | .request r => .request r
  | .event => .reset

/-! ### The opcode table's numbers -/

/-- The lowest `k` bytes of a number, most significant first (the table's "first byte leftmost"). -/
def bytesBE : Nat → Nat → List Byte
  | 0, _ => []
  | k + 1, w => BitVec.ofNat 8 (w >>> (8 * k)) :: bytesBE k w

/-- A row's bit pattern as spec/opcode_table.json prints it, over a whole number of bytes. -/
structure TableRow where
  bytes : Nat
  value : Nat
  mask : Nat
  deriving DecidableEq, Repr

/-- The row of the opcode table an instruction belongs to; none for the rows without a bit pattern. -/
def tableRow (i : Instr) : Option TableRow :=
  match i with
  | .wsStart => some ⟨2, 0x0AA, 0x7FF⟩
  | .wsSkip _ => some ⟨2, 0x000, 0x700⟩
  | .rcCmd _ => some ⟨2, 0x100, 0x700⟩
  | .rlZero => some ⟨2, 0x200, 0x7FF⟩
  | .rlLen _ => some ⟨2, 0x200, 0x7F0⟩
  | .rlOver _ => some ⟨2, 0x200, 0x700⟩
  | .rpMore _ => some ⟨2, 0x300, 0x700⟩
  | .rpLast _ => some ⟨2, 0x300, 0x700⟩
  | .rkOk _ => some ⟨2, 0x400, 0x700⟩
  | .rkBad _ => some ⟨2, 0x400, 0x700⟩
  | .xxResetState5 _ => some ⟨2, 0x500, 0x700⟩
  | .xxResetState67 _ _ => some ⟨2, 0x600, 0x600⟩
  | .xxResetMalformed _ _ => some ⟨2, 0x000, 0x000⟩
  | .frameL0 .. => some ⟨4, 0xAA000000, 0xFF00FF00⟩
  | .frameL1 .. => some ⟨5, 0xAA00010000, 0xFF00FF0000⟩
  | .frameL2 .. => some ⟨6, 0xAA0002000000, 0xFF00FF000000⟩
  | .frameL3 .. => some ⟨7, 0xAA000300000000, 0xFF00FF00000000⟩
  | .frameL4 .. => some ⟨8, 0xAA00040000000000, 0xFF00FF0000000000⟩
  | .frameL5 .. => some ⟨9, 0xAA0005000000000000, 0xFF00FF000000000000⟩
  | .frameL6 .. => some ⟨10, 0xAA000600000000000000, 0xFF00FF00000000000000⟩
  | .frameL7 .. => some ⟨11, 0xAA00070000000000000000, 0xFF00FF0000000000000000⟩
  | .frameL8 .. => some ⟨12, 0xAA0008000000000000000000, 0xFF00FF000000000000000000⟩
  | .frameL9 .. => some ⟨13, 0xAA000900000000000000000000, 0xFF00FF00000000000000000000⟩
  | .frameL10 .. => some ⟨14, 0xAA000A0000000000000000000000, 0xFF00FF0000000000000000000000⟩
  | .ack => some ⟨1, 0x06, 0xFF⟩
  | .nack => some ⟨1, 0x15, 0xFF⟩
  | .encode .. | .reset | .frame .. | .badframe .. | .raw .. => none

/-- The bytes of a code as the table numbers them: a key is two bytes, its upper five bits 0. -/
def Code.tableBytes (c : Code) : List Byte :=
  match c with
  | .key k => [(keyState k).setWidth 8, keyByte k]
  | .bytes bs => bs
  | .response b => [b]
  | .request _ => []
  | .event => []

/-- The bytes match the row's pattern: same length, and equal to `value` in every bit of `mask`. -/
def TableRow.fits (r : TableRow) (bs : List Byte) : Prop :=
  List.zipWith (· &&& ·) bs (bytesBE r.bytes r.mask) = bytesBE r.bytes r.value ∧ bs.length = r.bytes

/-! ### The host's questions about one table word -/

/-- The code of a table word (log 14): up to 8 bits a response, up to 16 a STEP key, above that the bytes of
a frame, first byte leftmost. -/
def tableCode (nbits w : Nat) : Code :=
  if nbits ≤ 8 then .response (BitVec.ofNat 8 w)
  else if nbits ≤ 16 then .key (BitVec.ofNat 11 w)
  else .bytes (bytesBE (nbits / 8) w)

/-- Registers in which a STEP key of the given state is read when the table word alone is given: a frame of
command 0 in flight, in `ReadPayload` of length 2 with no byte stored, in `ReadChecksum` of length 0. -/
def tableContext (st : StateCode) : Decoder :=
  match Phase.ofCode st with
  | .waitStart => Decoder.reset
  | .readCommand => { Decoder.reset with state := .readCommand, startMarker := Config.startMarker }
  | .readLength => { Decoder.reset with state := .readLength, startMarker := Config.startMarker }
  | .readPayload =>
    { Decoder.reset with state := .readPayload, startMarker := Config.startMarker, payloadLength := 2#8 }
  | .readChecksum => { Decoder.reset with state := .readChecksum, startMarker := Config.startMarker }
  | .code5 => { Decoder.reset with state := .code5 }
  | .code6 => { Decoder.reset with state := .code6 }
  | .code7 => { Decoder.reset with state := .code7 }

/-- The registers in which a table word is read: the context of a key's state, else `d` unchanged. -/
def tableRegisters (d : Decoder) (c : Code) : Decoder :=
  match c with
  | .key k => tableContext (keyState k)
  | .bytes _ | .response _ | .request _ | .event => d

/-- The instruction of a table word. -/
def decodeTableWord (nbits w : Nat) : Option Instr :=
  match decodeCode (tableRegisters Decoder.reset (tableCode nbits w)) (tableCode nbits w) with
  | .ok i => some i
  | .error _ => none

end Sys2Proof
end

