-- ==== Sys2Proof/Machine/Ops.lean ====
section
/-!
DEFINITION. The shared operations over the state: the packet registers (10_state.md R17), the outputs
(45_interfaces.md R121), the encoder (43_encoder.md R100), the dispatch (42_dispatch.md R90, R93), the
rejection sequence (60_exceptions.md R155), and the whole decoder step with its system step
(40_decoder.md R77, 45_interfaces.md R123).
-/

namespace Sys2Proof.Machine

/-! ### Sequencing -/

/-- Go on with the next state, stop at a fault or a refusal. -/
def andThen (r : Result) (f : State → Result) : Result :=
  match r with
  | .next s => f s
  | .fault x => .fault x
  | .refused x => .refused x

/-! ### Updates of the state, one per field -/

def State.withDec (s : State) (d : Decoder) : State := { s with dec := d }

def State.withQueue (s : State) (q : List Stimulus) : State := { s with queue := q }

def State.withReplies (s : State) (r : List (List EncodeRequest)) : State := { s with replies := r }

def State.withPort (s : State) (p : Port) : State := { s with port := p }

/-- What an event puts on the byte sink (45_interfaces.md R120, R121). -/
def Event.sinkBytes (e : Event) : List Byte :=
  match e with
  | .resp b => [b]
  | .dispatch _ _ _ => []
  | .tx f => f

/-- The bytes of a sequence of events, in order. -/
def sinkOf (es : List Event) : List Byte := es.flatMap Event.sinkBytes

/-- `emit` (00_scope.md R8): the event joins the output sequence, its bytes the sink. -/
def State.emit (s : State) (e : Event) : State :=
  { s with log := s.log ++ [e], sink := s.sink ++ e.sinkBytes }

/-! ### The packet registers -/

/-- `clear_packet()` (R17). -/
def Decoder.clearPacket (d : Decoder) : Decoder :=
  { d with startMarker := 0#8, commandId := 0#8, payloadLength := 0#8, index := 0#4, payload := [] }

/-- `state <- S`. -/
def Decoder.goto (d : Decoder) (p : Phase) : Decoder := { d with state := p }

/-- `clear_packet(); state <- WaitStart`: the end of every frame attempt (R17). -/
def Decoder.abandon (d : Decoder) : Decoder := d.clearPacket.goto .waitStart

/-- `MemWrite(index, 1, b); index <- index + 1` (R31, R72, R73); none where the address is outside the
buffer. -/
def Decoder.storePayload (d : Decoder) (b : Byte) : Option Decoder :=
  (Memory.memWrite d.payload d.index.toNat b).map fun m => { d with payload := m, index := d.index + 1#4 }

/-! ### Rejection: the framer's exception (60_exceptions.md R150 to R156) -/

/-- The two rejections and what they carry for the reader only (R150). -/
inductive Rejection where
  | lengthOverflow (b : Byte)
  | checksumMismatch (expected got : Byte)
  deriving DecidableEq, Repr

/-- The response byte that reports a rejection: both causes send the same one (R111, R150). -/
def Rejection.code (r : Rejection) : Byte :=
  match r with
  | .lengthOverflow _ => Config.nack
  | .checksumMismatch _ _ => Config.nack

/-- `raise` (R155): `clear_packet(); state <- WaitStart; emit Resp(NACK)`, nothing saved. There is no return
operation (R156): the next byte is taken in `WaitStart`. -/
def raise (r : Rejection) (s : State) : State :=
  (s.withDec s.dec.abandon).emit (.resp r.code)

/-! ### The encoder -/

/-- A request inside the operation's domain (43_encoder.md R100, R104, R105). -/
def EncodeRequest.ok (r : EncodeRequest) : Bool :=
  !isOverLength r.len && decide (r.len.toNat ≤ r.data.length)

/-- `ENCODE(cmd, len, data)` (R100); outside its domain it has no meaning (R104, R105). -/
def runEncode (r : EncodeRequest) (s : State) : Result :=
  if isOverLength r.len then .refused .encodeLengthOverMax
  else if r.data.length < r.len.toNat then .refused .encodeDataShort
  else .next (s.emit (.tx r.frame))

/-- Several requests in order (R93, R123). -/
def runEncodes : List EncodeRequest → State → Result
  | [], s => .next s
  | r :: rs, s => andThen (runEncode r s) (runEncodes rs)

/-! ### The dispatch -/

/-- `Dispatch(c, n, p)` (R90): the event by value, then every request the Dispatcher makes during it, in
order (R93). A Dispatcher whose list has run out makes none (70_reset_and_hazards.md R178). -/
def dispatch (c n : Byte) (p : List Byte) (s : State) : Result :=
  runEncodes (s.replies.headD []) ((s.emit (.dispatch c n p)).withReplies s.replies.tail)

/-- The events of a step, in order (45_interfaces.md R123). -/
def perform : List Event → State → Result
  | [], s => .next s
  | .dispatch c n p :: es, s => andThen (dispatch c n p s) (perform es)
  | .resp b :: es, s => perform es (s.emit (.resp b))
  | .tx f :: es, s => perform es (s.emit (.tx f))

/-! ### The whole decoder step -/

/-- `DecStep` (40_decoder.md R77): the step written out once as one function. -/
def decStep (d : Decoder) (b : Byte) : Decoder × List Event :=
  if d.malformed then (Decoder.reset, [])
  else
    match d.state with
    | .waitStart =>
      if b = Config.startMarker then ({ d with startMarker := b, state := .readCommand }, []) else (d, [])
    | .readCommand => ({ d with commandId := b, state := .readLength }, [])
    | .readLength =>
      if Config.maxPayload < b.toNat then (Decoder.reset, [.resp Config.nack])
      else if b = 0#8 then ({ d with payloadLength := 0#8, state := .readChecksum }, [])
      else ({ d with payloadLength := b, index := 0#4, state := .readPayload }, [])
    | .readPayload =>
      let stored : Decoder :=
        { d with payload := Memory.writeByte d.payload d.index.toNat b, index := d.index + 1#4 }
      if stored.index.toNat = stored.payloadLength.toNat then ({ stored with state := .readChecksum }, [])
      else (stored, [])
    | .readChecksum =>
      if b = d.checksum then
        (Decoder.reset, [.dispatch d.commandId d.payloadLength d.payloadInUse, .resp Config.ack])
      else (Decoder.reset, [.resp Config.nack])
    | .code5 | .code6 | .code7 => (Decoder.reset, [])

/-- `DecRun` (R77): the left fold of `DecStep`, the outputs concatenated. -/
def decRun : Decoder → List Byte → Decoder × List Event
  | d, [] => (d, [])
  | d, b :: rest =>
    let first := decStep d b
    let more := decRun first.1 rest
    (more.1, first.2 ++ more.2)

/-- One delivered byte in the system (45_interfaces.md R123 `SysStep`). -/
def deliverByte (b : Byte) (s : State) : Result :=
  perform (decStep s.dec b).2 (s.withDec (decStep s.dec b).1)

/-- Consecutive bytes, one system step each. -/
def deliverBytes : List Byte → State → Result
  | [], s => .next s
  | b :: rest, s => andThen (deliverByte b s) (deliverBytes rest)

/-! ### STEP rows -/

/-- A STEP row has its effect where its encoding's condition holds; elsewhere it is not the instruction of
the present state (R51, log 15). -/
def whenSelected (i : Instr) (s : State) (effect : State → Result) : Result :=
  if rowSelected i s.dec then effect s else .refused .rowNotSelected

/-- A payload byte stored, then the next state of the sequencing register (R72, R73). -/
def storePayloadThen (b : Byte) (p : Phase) (s : State) : Result :=
  match s.dec.storePayload b with
  | some d => .next (s.withDec (d.goto p))
  | none => .fault (.payloadAddress s.dec.index.toNat)

/-- The defensive reset (R76): the byte is discarded, the packet cleared, nothing emitted. -/
def defensiveReset (s : State) : Result := .next (s.withDec s.dec.abandon)

end Sys2Proof.Machine
end

