-- ==== Sys2Proof/Machine/FrameRows.lean ====
section
/-!
DEFINITION. The meanings of the FRAME rows (30_encoding.md R45): the frame's bytes are delivered to the
decoder one after the other, each one system step (40_decoder.md R77, 45_interfaces.md R123; log 6).
-/

namespace Sys2Proof.Machine

/-- FRAME.L0. -/
def execFrameL0 (c k : Byte) (s : State) : Result :=
  deliverBytes (frameBytes c [] k) s

/-- FRAME.L1. -/
def execFrameL1 (c p0 k : Byte) (s : State) : Result :=
  deliverBytes (frameBytes c [p0] k) s

/-- FRAME.L2. -/
def execFrameL2 (c p0 p1 k : Byte) (s : State) : Result :=
  deliverBytes (frameBytes c [p0, p1] k) s

/-- FRAME.L3. -/
def execFrameL3 (c p0 p1 p2 k : Byte) (s : State) : Result :=
  deliverBytes (frameBytes c [p0, p1, p2] k) s

/-- FRAME.L4. -/
def execFrameL4 (c p0 p1 p2 p3 k : Byte) (s : State) : Result :=
  deliverBytes (frameBytes c [p0, p1, p2, p3] k) s

/-- FRAME.L5. -/
def execFrameL5 (c p0 p1 p2 p3 p4 k : Byte) (s : State) : Result :=
  deliverBytes (frameBytes c [p0, p1, p2, p3, p4] k) s

/-- FRAME.L6. -/
def execFrameL6 (c p0 p1 p2 p3 p4 p5 k : Byte) (s : State) : Result :=
  deliverBytes (frameBytes c [p0, p1, p2, p3, p4, p5] k) s

/-- FRAME.L7. -/
def execFrameL7 (c p0 p1 p2 p3 p4 p5 p6 k : Byte) (s : State) : Result :=
  deliverBytes (frameBytes c [p0, p1, p2, p3, p4, p5, p6] k) s

/-- FRAME.L8. -/
def execFrameL8 (c p0 p1 p2 p3 p4 p5 p6 p7 k : Byte) (s : State) : Result :=
  deliverBytes (frameBytes c [p0, p1, p2, p3, p4, p5, p6, p7] k) s

/-- FRAME.L9. -/
def execFrameL9 (c p0 p1 p2 p3 p4 p5 p6 p7 p8 k : Byte) (s : State) : Result :=
  deliverBytes (frameBytes c [p0, p1, p2, p3, p4, p5, p6, p7, p8] k) s

/-- FRAME.L10. -/
def execFrameL10 (c p0 p1 p2 p3 p4 p5 p6 p7 p8 p9 k : Byte) (s : State) : Result :=
  deliverBytes (frameBytes c [p0, p1, p2, p3, p4, p5, p6, p7, p8, p9] k) s

end Sys2Proof.Machine
end

