-- ==== Sys2Proof/Machine/OtherRows.lean ====
section
/-!
DEFINITION. The meanings of the rows that are no delivered byte and no frame of fixed length: the responses
(44_response.md R110, R111), the encoder's request (43_encoder.md R100), the reset event
(70_reset_and_hazards.md R175, R176) and the pseudo-instructions (30_encoding.md R58).
-/

namespace Sys2Proof.Machine

/-- ACK (R110): the response byte 0x06 on the sink. -/
def execAck (s : State) : Result := .next (s.emit (.resp Config.ack))

/-- NACK (R111): the response byte 0x15 on the sink. -/
def execNack (s : State) : Result := .next (s.emit (.resp Config.nack))

/-- ENCODE (R100, R104, R105). -/
def execEncode (cmd len : Byte) (data : List Byte) (s : State) : Result := runEncode ⟨cmd, len, data⟩ s

/-- RESET (R175, R176): every decoder register to its reset value, no output. -/
def execReset (s : State) : Result := .next (s.withDec Decoder.reset)

/-- FRAME c, p (R58): defined for at most `MAX_PAYLOAD` payload bytes. -/
def execFrame (c : Byte) (p : List Byte) (s : State) : Result :=
  if p.length ≤ Config.maxPayload then deliverBytes (encodeFrame c p) s else .refused .pseudoUndefined

/-- BADFRAME c, p, k (R58): defined for at most `MAX_PAYLOAD` payload bytes and a `k` that differs from the
checksum. -/
def execBadframe (c : Byte) (p : List Byte) (k : Byte) (s : State) : Result :=
  if p.length ≤ Config.maxPayload ∧ k ≠ frameChecksum c p then deliverBytes (frameBytes c p k) s
  else .refused .pseudoUndefined

/-- RAW bs (R58): always defined. -/
def execRaw (bs : List Byte) (s : State) : Result := deliverBytes bs s

end Sys2Proof.Machine
end

