-- ==== Sys2Proof/Machine/StepRows.lean ====
section
/-!
DEFINITION. The meanings of the STEP rows: one decoder transition each (40_decoder.md R66 to R76).
-/

namespace Sys2Proof.Machine

/-- WS.START (R66). -/
def execWsStart (s : State) : Result :=
  whenSelected .wsStart s fun s =>
    .next (s.withDec { s.dec with startMarker := Config.startMarker, state := .readCommand })

/-- WS.SKIP (R67): nothing changes. -/
def execWsSkip (b : Byte) (s : State) : Result :=
  whenSelected (.wsSkip b) s fun s => .next s

/-- RC.CMD (R68). -/
def execRcCmd (c : Byte) (s : State) : Result :=
  whenSelected (.rcCmd c) s fun s => .next (s.withDec { s.dec with commandId := c, state := .readLength })

/-- RL.ZERO (R70): `index` and the payload are not written. -/
def execRlZero (s : State) : Result :=
  whenSelected .rlZero s fun s => .next (s.withDec { s.dec with payloadLength := 0#8, state := .readChecksum })

/-- RL.LEN (R71). -/
def execRlLen (l : Byte) (s : State) : Result :=
  whenSelected (.rlLen l) s fun s =>
    .next (s.withDec { s.dec with payloadLength := l, index := 0#4, state := .readPayload })

/-- RL.OVER (R69): raises the length overflow. -/
def execRlOver (b : Byte) (s : State) : Result :=
  whenSelected (.rlOver b) s fun s => .next (raise (.lengthOverflow b) s)

/-- RP.MORE (R72). -/
def execRpMore (p : Byte) (s : State) : Result :=
  whenSelected (.rpMore p) s fun s => storePayloadThen p .readPayload s

/-- RP.LAST (R73). -/
def execRpLast (p : Byte) (s : State) : Result :=
  whenSelected (.rpLast p) s fun s => storePayloadThen p .readChecksum s

/-- RK.OK (R74): `Dispatch`, what the Dispatcher requests, `Resp(ACK)`, then the packet is cleared. -/
def execRkOk (k : Byte) (s : State) : Result :=
  whenSelected (.rkOk k) s fun s =>
    andThen (dispatch s.dec.commandId s.dec.payloadLength s.dec.payloadInUse s) fun t =>
      let u := t.emit (.resp Config.ack)
      .next (u.withDec u.dec.abandon)

/-- RK.BAD (R75): raises the checksum mismatch. -/
def execRkBad (k : Byte) (s : State) : Result :=
  whenSelected (.rkBad k) s fun s => .next (raise (.checksumMismatch s.dec.checksum k) s)

/-- XX.RESET in state 5 (R76). -/
def execXxResetState5 (b : Byte) (s : State) : Result :=
  whenSelected (.xxResetState5 b) s defensiveReset

/-- XX.RESET in states 6 and 7 (R76). -/
def execXxResetState67 (lo : BitVec 1) (b : Byte) (s : State) : Result :=
  whenSelected (.xxResetState67 lo b) s defensiveReset

/-- XX.RESET with malformed registers (R76). -/
def execXxResetMalformed (st : StateCode) (b : Byte) (s : State) : Result :=
  whenSelected (.xxResetMalformed st b) s defensiveReset

end Sys2Proof.Machine
end

