-- ==== Sys2Proof/Machine/Dispatch.lean ====
section
/-!
DEFINITION. The dispatch from an instruction to its meaning: one arm per row of the opcode table.
-/

namespace Sys2Proof.Machine

def exec (i : Instr) (s : State) : Host.Outcome State Fault Refusal :=
  match i with
  | .wsStart => Sys2Proof.Machine.execWsStart s
  | .wsSkip b => Sys2Proof.Machine.execWsSkip b s
  | .rcCmd c => Sys2Proof.Machine.execRcCmd c s
  | .rlZero => Sys2Proof.Machine.execRlZero s
  | .rlLen l => Sys2Proof.Machine.execRlLen l s
  | .rlOver b => Sys2Proof.Machine.execRlOver b s
  | .rpMore p => Sys2Proof.Machine.execRpMore p s
  | .rpLast p => Sys2Proof.Machine.execRpLast p s
  | .rkOk k => Sys2Proof.Machine.execRkOk k s
  | .rkBad k => Sys2Proof.Machine.execRkBad k s
  | .xxResetState5 b => Sys2Proof.Machine.execXxResetState5 b s
  | .xxResetState67 lo b => Sys2Proof.Machine.execXxResetState67 lo b s
  | .xxResetMalformed st b => Sys2Proof.Machine.execXxResetMalformed st b s
  | .frameL0 c k => Sys2Proof.Machine.execFrameL0 c k s
  | .frameL1 c p0 k => Sys2Proof.Machine.execFrameL1 c p0 k s
  | .frameL2 c p0 p1 k => Sys2Proof.Machine.execFrameL2 c p0 p1 k s
  | .frameL3 c p0 p1 p2 k => Sys2Proof.Machine.execFrameL3 c p0 p1 p2 k s
  | .frameL4 c p0 p1 p2 p3 k => Sys2Proof.Machine.execFrameL4 c p0 p1 p2 p3 k s
  | .frameL5 c p0 p1 p2 p3 p4 k => Sys2Proof.Machine.execFrameL5 c p0 p1 p2 p3 p4 k s
  | .frameL6 c p0 p1 p2 p3 p4 p5 k => Sys2Proof.Machine.execFrameL6 c p0 p1 p2 p3 p4 p5 k s
  | .frameL7 c p0 p1 p2 p3 p4 p5 p6 k => Sys2Proof.Machine.execFrameL7 c p0 p1 p2 p3 p4 p5 p6 k s
  | .frameL8 c p0 p1 p2 p3 p4 p5 p6 p7 k => Sys2Proof.Machine.execFrameL8 c p0 p1 p2 p3 p4 p5 p6 p7 k s
  | .frameL9 c p0 p1 p2 p3 p4 p5 p6 p7 p8 k => Sys2Proof.Machine.execFrameL9 c p0 p1 p2 p3 p4 p5 p6 p7 p8 k s
  | .frameL10 c p0 p1 p2 p3 p4 p5 p6 p7 p8 p9 k => Sys2Proof.Machine.execFrameL10 c p0 p1 p2 p3 p4 p5 p6 p7 p8 p9 k s
  | .ack => Sys2Proof.Machine.execAck s
  | .nack => Sys2Proof.Machine.execNack s
  | .encode cmd len data => Sys2Proof.Machine.execEncode cmd len data s
  | .reset => Sys2Proof.Machine.execReset s
  | .frame c p => Sys2Proof.Machine.execFrame c p s
  | .badframe c p k => Sys2Proof.Machine.execBadframe c p k s
  | .raw bs => Sys2Proof.Machine.execRaw bs s

end Sys2Proof.Machine
end

