-- ==== Sys2Proof/Machine/Ports.lean ====
section
/-!
DEFINITION. The port-level binding (45_interfaces.md R125 to R128; the spec's own choice, D13): the output
signals of a cycle and what one rising clock edge does. The open cycle counts are the `txGo`, `dispGo` and
`encGo` inputs of a cycle (log 10).
-/

namespace Sys2Proof.Machine

/-! ### Payload buses -/

/-- The bytes of an 80-bit payload bus, byte `i` in bits `[8i+7 : 8i]` (R128). -/
def busBytes (v : BitVec 80) : List Byte := (List.range 10).map fun i => v.extractLsb' (8 * i) 8

/-- A payload on an 80-bit bus, the bytes beyond its end 0x00 (R128, D21). -/
def busOf : List Byte → BitVec 80
  | [] => 0#80
  | b :: bs => (busOf bs <<< 8) ||| b.setWidth 80

/-! ### The output signals of a cycle -/

/-- Outputs of the last decoder step that have not been accepted yet (R126: they hold `rx_ready` low). -/
def Port.stepPending (p : Port) : Bool := !p.out.isEmpty || (p.txOfStep && !p.tx.isEmpty)

/-- Anything at all is still being handed over. -/
def Port.busy (p : Port) : Bool := !p.out.isEmpty || !p.tx.isEmpty

/-- The framer's output signals; a payload bus or data line is given where its valid signal is 1. -/
structure PortSignals where
  rxReady : Bool
  /-- `tx_valid`, with `tx_data` and `tx_last`. -/
  tx : Option (Byte × Bool)
  /-- `disp_valid`, with `disp_cmd`, `disp_len` and `disp_payload`. -/
  disp : Option (Byte × Byte × BitVec 80)
  encReady : Bool
  deriving DecidableEq, Repr

/-- `rx_ready` (R126). -/
def rxReady (pins : Pins) (p : Port) : Bool := !pins.rst && !p.stepPending

/-- A byte is delivered in this cycle (R126). -/
def rxFires (pins : Pins) (p : Port) : Bool := pins.rxValid && rxReady pins p

/-- `tx_valid`, `tx_data`, `tx_last` (R127). -/
def txSignal (pins : Pins) (p : Port) : Option (Byte × Bool) :=
  match p.tx with
  | [] => none
  | b :: rest => if pins.txGo then some (b, rest.isEmpty) else none

/-- `disp_valid`, `disp_cmd`, `disp_len`, `disp_payload` (R128). -/
def dispSignal (pins : Pins) (p : Port) : Option (Byte × Byte × BitVec 80) :=
  match p.out with
  | .dispatch c n bs :: _ => if p.dispShown || pins.dispGo then some (c, n, busOf bs) else none
  | _ => none

/-- `enc_ready` (R128): never in the middle of a sequence, and only with no step's outputs pending or with a
dispatch in progress; not in the cycle that delivers a byte (20_memory.md R40: an ENCODE never overlaps a
decoder step; log 17). DESIGN CHOICE: `rst` does not withhold it, so a request may be accepted in a cycle with
`rst` 1, which the spec leaves open (log 20). -/
def encReady (pins : Pins) (p : Port) : Bool :=
  pins.encGo && p.tx.isEmpty && (p.out.isEmpty || (dispSignal pins p).isSome) && !rxFires pins p

/-- All output signals. -/
def Port.signals (pins : Pins) (p : Port) : PortSignals :=
  { rxReady := rxReady pins p, tx := txSignal pins p, disp := dispSignal pins p, encReady := encReady pins p }

/-! ### The parts of a clock edge -/

/-- The transmit port: the byte presented is transferred where `tx_ready` is 1 (R127). -/
def txEdge (pins : Pins) (s : State) : State :=
  match txSignal pins s.port with
  | some (b, _) =>
    if pins.txReady then
      { s with sink := s.sink ++ [b], port := { s.port with tx := s.port.tx.tail } }
    else s
  | none => s

/-- The dispatch port: held until `disp_done` (R128). -/
def dispEdge (pins : Pins) (s : State) : State :=
  match dispSignal pins s.port with
  | some _ =>
    if pins.dispDone then { s with port := { s.port with out := s.port.out.tail, dispShown := false } }
    else { s with port := { s.port with dispShown := true } }
  | none => s

/-- The sink takes what is left of the sequence on the transmit port. DESIGN CHOICE (log 9): with no decoder
step unfinished a transaction finds there at most the frame of an outside `ENCODE`, which is atomic with
respect to the sink (43_encoder.md R106) and contiguous (20_memory.md R35), so its rest goes first. -/
def State.finishFrame (s : State) : State :=
  { s with sink := s.sink ++ s.port.tx, port := { s.port with tx := [] } }

/-- The request at the encoder port. -/
def Pins.request (pins : Pins) : EncodeRequest := ⟨pins.encCmd, pins.encLen, busBytes pins.encPayload⟩

/-- The encoder port: an accepted request's frame is the transmit port's next sequence (R128). -/
def encEdge (taken : Bool) (pins : Pins) (s : State) : State :=
  if taken then
    { s with
      log := s.log ++ [.tx pins.request.frame]
      port := { s.port with tx := pins.request.frame, txOfStep := false } }
  else s

/-- The `Dispatch` events among a step's outputs: they are emitted by the step itself; a response is emitted
when the transmit port takes it up. -/
def dispatchesOf (es : List Event) : List Event :=
  es.filter fun e => match e with
    | .dispatch _ _ _ => true
    | .resp _ | .tx _ => false

/-- The decoder: reset (R125), or one step on the byte delivered (R126), its outputs pending. -/
def decEdge (taken : Bool) (pins : Pins) (s : State) : State :=
  if pins.rst then s.withDec Decoder.reset
  else if taken then
    { s with
      dec := (decStep s.dec pins.rxData).1
      log := s.log ++ dispatchesOf (decStep s.dec pins.rxData).2
      port := { s.port with out := (decStep s.dec pins.rxData).2 } }
  else s

/-- The next pending response moves to the transmit port once that is free (R127). -/
def respEdge (s : State) : State :=
  match s.port.out, s.port.tx with
  | .resp b :: rest, [] =>
    { s with log := s.log ++ [.resp b], port := { s.port with tx := [b], txOfStep := true, out := rest } }
  | _, _ => s

/-- One rising clock edge. Reset while a step's outputs are pending is not modelled (70_reset_and_hazards.md
R176); a request accepted with `enc_len > MAX_PAYLOAD` has no meaning (R128, R104). -/
def clockEdge (pins : Pins) (s : State) : Result :=
  let encTaken := pins.encValid && encReady pins s.port
  let rxTaken := rxFires pins s.port
  if pins.rst && s.port.stepPending then .refused .resetWhileOutputsPending
  else if encTaken && isOverLength pins.encLen then .refused .encodeLengthOverMax
  else .next (respEdge (decEdge rxTaken pins (encEdge encTaken pins (dispEdge pins (txEdge pins s)))))

end Sys2Proof.Machine
end

