-- ==== Sys2Proof/Machine/Fetch.lean ====
section
/-!
DEFINITION. How a step takes its next stimulus (20_memory.md R34, 45_interfaces.md R115, R124), and where
the host's table word is placed (log 14, log 16).
-/

namespace Sys2Proof.Machine

/-- Why a delivery that is no instruction stops the machine. -/
def refusalOf (e : DecodeError) : Refusal :=
  match e with
  | .responseByteIllegal _ => .responseByteIllegal

/-- A transaction: decoded in the present registers and executed. There is none while a decoder step's
outputs are still being handed over (70_reset_and_hazards.md R181); the frame of an outside `ENCODE` holds
none off (45_interfaces.md R126) and reaches the sink first (log 9). -/
def deliver (x : Delivery) (s : State) : Result :=
  if s.port.stepPending then .refused .outputsPending
  else
    match decode s.dec x with
    | .ok i => exec i s.finishFrame
    | .error e => .refused (refusalOf e)

/-- The next entry of the queue is consumed. With nothing delivered the state stays as it is
(40_decoder.md R80, 60_exceptions.md R163). -/
def takeStimulus (s : State) : Result :=
  match s.queue with
  | [] => .next s
  | .deliver x :: rest => deliver x (s.withQueue rest)
  | .cycle pins :: rest => clockEdge pins (s.withQueue rest)

/-- A table word put at the front of the queue: for a STEP key the registers its state needs, the ports
idle, the rest unchanged. -/
def placeTableWord (s : State) (nbits w : Nat) : State :=
  { s with
    dec := tableRegisters s.dec (tableCode nbits w)
    queue := .deliver (tableCode nbits w).delivery :: s.queue
    port := Port.idle }

end Sys2Proof.Machine
end

