-- ==== Sys2Proof/Machine/Step.lean ====
section
/-!
DEFINITION. One step of the machine, and the placement of a table word for the host.
-/

namespace Sys2Proof.Machine

/-- One step: the next stimulus of the queue is consumed. -/
def step (s : State) : Host.Outcome State Fault Refusal := takeStimulus s

/-- `s` with the instruction of a table word as what the next step runs. -/
def State.withFetchWord (s : State) (nbits w : Nat) : State := placeTableWord s nbits w

end Sys2Proof.Machine
end

