-- ==== Sys2Proof/Machine/System.lean ====
section
/-!
DEFINITION. The system as the spec writes it with the Dispatcher as an argument (42_dispatch.md R96,
45_interfaces.md R123), for every type `Env`. The machine's own Dispatcher, a list of answers in State, is
one argument of it (log 3). No meaning uses this file: statements compare the machine with it.
-/

namespace Sys2Proof.Machine

/-- `Dispatcher : Env x Byte x Sequence(Byte) -> Env x Sequence(EncodeRequest)` (R96). -/
abbrev Dispatcher (Env : Type) := Env → Byte → List Byte → Env × List EncodeRequest

/-- The encode requests of one dispatch, appended to the sink in order; none where one violates the
encoder's precondition (R123 `require`, R104, R105). -/
def appendFrames : List EncodeRequest → List Byte → Option (List Byte)
  | [], sink => some sink
  | r :: rs, sink => if r.ok then appendFrames rs (sink ++ r.frame) else none

/-- The loop of `SysStep` over the events of a step (R123). -/
def serveEvents {Env : Type} (D : Dispatcher Env) : List Event → Env → List Byte → Option (Env × List Byte)
  | [], env, sink => some (env, sink)
  | .dispatch c _ p :: es, env, sink =>
    match appendFrames (D env c p).2 sink with
    | some sink' => serveEvents D es (D env c p).1 sink'
    | none => none
  | .resp b :: es, env, sink => serveEvents D es env (sink ++ [b])
  | .tx f :: es, env, sink => serveEvents D es env (sink ++ f)

/-- `SysStep` (R123). -/
def sysStep {Env : Type} (D : Dispatcher Env) (d : Decoder) (env : Env) (sink : List Byte) (b : Byte) :
    Option (Decoder × Env × List Byte) :=
  match serveEvents D (decStep d b).2 env sink with
  | some (env', sink') => some ((decStep d b).1, env', sink')
  | none => none

/-- A stream of bytes through `SysStep`. -/
def sysRun {Env : Type} (D : Dispatcher Env) :
    Decoder → Env → List Byte → List Byte → Option (Decoder × Env × List Byte)
  | d, env, sink, [] => some (d, env, sink)
  | d, env, sink, b :: bs =>
    match sysStep D d env sink b with
    | some (d', env', sink') => sysRun D d' env' sink' bs
    | none => none

/-- The machine's Dispatcher: its environment is the list of answers still to give. -/
def scripted : Dispatcher (List (List EncodeRequest)) := fun env _ _ => (env.tail, env.headD [])

/-- The source's example Dispatcher (R96, "one possible instance and not a requirement"): command 0x01
changes the environment according to `p[0]` (whatever a missing one means to it), command 0x03 answers with
four sampled bytes under `REPLY_CMD_ID`, every other command does nothing. -/
def exampleDispatcher {Env : Type} (set : Env → Option Byte → Env) (sample : Env → Vector Byte 4) :
    Dispatcher Env :=
  fun env c p =>
    if c = 0x01#8 then (set env p.head?, [])
    else if c = 0x03#8 then (env, [⟨Config.replyCmdId, 4, (sample env).toList⟩])
    else (env, [])

end Sys2Proof.Machine
end

