-- ==== Sys2Proof/Safety.lean ====
section
/-!
DEFINITION. What the statements call a good state: the invariants of the reachable states (10_state.md R21)
with the canonical form of the payload buffer, the legality of everything emitted (45_interfaces.md R120),
the agreement of the sink with the emitted events (R121), and the Dispatcher's duty (R124).
-/

namespace Sys2Proof.Machine

/-- Addresses from `n` on read as 0 (R21: "`payload[i] = 0` for `i >= index`"). -/
def Memory.zeroFrom (m : Memory) (n : Nat) : Prop := ∀ a, n ≤ a → Memory.readByte m a = 0#8

/-- The table of 10_state.md R21, and the buffer's canonical form. -/
def Decoder.Inv (d : Decoder) : Prop :=
  Memory.wf d.payload = true ∧
  match d.state with
  | .waitStart => d = Decoder.reset
  | .readCommand =>
    d.startMarker = Config.startMarker ∧ d.commandId = 0#8 ∧ d.payloadLength = 0#8 ∧ d.index = 0#4 ∧ d.payload = []
  | .readLength => d.startMarker = Config.startMarker ∧ d.payloadLength = 0#8 ∧ d.index = 0#4 ∧ d.payload = []
  | .readPayload =>
    d.startMarker = Config.startMarker ∧ d.payloadLength.toNat ≤ Config.maxPayload ∧
      d.index.toNat < d.payloadLength.toNat ∧ Memory.zeroFrom d.payload d.index.toNat
  | .readChecksum =>
    d.startMarker = Config.startMarker ∧ d.payloadLength.toNat ≤ Config.maxPayload ∧
      d.index.toNat = d.payloadLength.toNat ∧ Memory.zeroFrom d.payload d.payloadLength.toNat
  | .code5 | .code6 | .code7 => False

/-- A dispatched packet's length byte is its payload's length, at most `MAX_PAYLOAD` (46_properties.md R141). -/
def packetLegal (n : Byte) (p : List Byte) : Prop := n.toNat = p.length ∧ p.length ≤ Config.maxPayload

/-- What may ever be emitted (R120, R141). -/
def Event.Legal (e : Event) : Prop :=
  match e with
  | .resp b => b = Config.ack ∨ b = Config.nack
  | .dispatch _ n p => packetLegal n p
  | .tx f => wellFormedFrame f = true

/-- What may be pending at the ports after a decoder step (40_decoder.md R78). -/
inductive PendingLegal : List Event → Prop where
  | none : PendingLegal []
  | response (b : Byte) (h : b = Config.ack ∨ b = Config.nack) : PendingLegal [.resp b]
  | dispatchFirst (c n : Byte) (p : List Byte) (h : packetLegal n p) :
      PendingLegal [.dispatch c n p, .resp Config.ack]

/-- The invariant of the machine. -/
structure State.Inv (s : State) : Prop where
  /-- The registers are as in the table of R21. -/
  dec : s.dec.Inv
  /-- Everything emitted is legal. -/
  log : ∀ e ∈ s.log, e.Legal
  /-- The bytes of what was emitted are what the sink has taken and what the transmit port still holds. -/
  sink : sinkOf s.log = s.sink ++ s.port.tx
  /-- What is pending at the ports is what one decoder step emits, or a rest of it. -/
  out : PendingLegal s.port.out
  /-- `disp_valid` is held for a pending dispatch only. -/
  shown : s.port.dispShown = true → ∃ c n p rest, s.port.out = .dispatch c n p :: rest

/-- The Dispatcher's duty for its next dispatch: every request is inside the encoder's domain (R124). -/
def State.nextRepliesOk (s : State) : Prop := ∀ r ∈ s.replies.headD [], r.ok = true

/-- The Dispatcher's duty for every dispatch to come. -/
def State.allRepliesOk (s : State) : Prop := ∀ rs ∈ s.replies, ∀ r ∈ rs, r.ok = true

/-- The bytes that the frames of some requests put on the sink, in order. -/
def framesBytes (rs : List EncodeRequest) : List Byte := rs.flatMap EncodeRequest.frame

/-- The events of the frames of some requests, in order. -/
def framesEvents (rs : List EncodeRequest) : List Event := rs.map fun r => .tx r.frame

/-- Whether a list of events holds a response, and how many it holds. -/
def responseCount (es : List Event) : Nat :=
  (es.filter fun e => match e with
    | .resp _ => true
    | .dispatch _ _ _ | .tx _ => false).length

/-- The byte a STEP row is delivered with; none for the rows of other formats. -/
def stepByte (i : Instr) : Option Byte :=
  match encode i with
  | .key k => some (keyByte k)
  | .bytes _ | .response _ | .request _ | .event => none

/-! ### Cycles the port-level statements speak of -/

/-- A cycle in which nothing is asked of the framer and it raises nothing. -/
def Pins.quiet : Pins :=
  { rst := false, rxValid := false, rxData := 0#8, txReady := false, dispDone := false, encValid := false,
    encCmd := 0#8, encLen := 0#8, encPayload := 0#80, txGo := false, dispGo := false, encGo := false }

/-- The byte source presents a byte. -/
def Pins.receive (b : Byte) : Pins := { Pins.quiet with rxValid := true, rxData := b }

/-- A byte is presented on the transmit port and taken. -/
def Pins.transmit : Pins := { Pins.quiet with txReady := true, txGo := true }

/-- An encode request is presented and granted while the dispatch is shown. -/
def Pins.encodeInDispatch (cmd len : Byte) (payload : BitVec 80) : Pins :=
  { Pins.quiet with
    encValid := true, encCmd := cmd, encLen := len, encPayload := payload, encGo := true, dispGo := true }

/-- The Dispatcher has finished. -/
def Pins.dispatchDone : Pins := { Pins.quiet with dispDone := true, dispGo := true }

end Sys2Proof.Machine
end

