-- ==== Sys2Proof/Certificates/Slice0/Obligations.lean ====
section
/-!
DEFINITION. The statements for the provers. Values the spec writes as numbers are written as numbers here.
-/

open Sys2Proof Sys2Proof.Machine

/-! ### Reset, the step, decoding -/

/-- 10_state.md R22 with 70_reset_and_hazards.md R175: after reset the decoder waits for a start marker and
every packet register is 0 (zero is the spec's decision D6; an empty sink is R121; idle ports and no queued
stimulus are the model's, logs 2 and 4). -/
def Obligations.ResetLeavesDecoderWaiting : Prop :=
  State.reset.dec.state = .waitStart ∧ State.reset.dec.state.code = 0#3 ∧
    State.reset.dec.startMarker = 0#8 ∧ State.reset.dec.commandId = 0#8 ∧
    State.reset.dec.payloadLength = 0#8 ∧ State.reset.dec.index = 0#4 ∧
    (∀ a, a < 10 → Memory.memRead State.reset.dec.payload a = some 0#8) ∧
    State.reset.sink = [] ∧ State.reset.port.busy = false ∧ State.reset.queue = []

/-- 70_reset_and_hazards.md R175, R176: from every state, reset puts the decoder's registers at their reset
values and emits nothing (the values are the spec's decision D6). -/
def Obligations.ResetEventRestoresDecoder : Prop :=
  ∀ s : State, exec .reset s = .next { s with dec := Decoder.reset }

/-- 20_memory.md R34, 45_interfaces.md R123: a step consumes the front of the queue; a delivery that decodes
to an instruction is executed, with the queue moved on; a clock edge acts on the ports. What is left of an
outside ENCODE's frame on the transmit port is on the sink before the instruction runs (20_memory.md R35; that
it goes there in the same step is the model's, log 9). A delivery while a decoder step's outputs are still
being handed over stops (70_reset_and_hazards.md R181, the spec's decision D14), and so does a response byte
that is neither ACK nor NACK (30_encoding.md R46; responses as stimuli are the model's, log 7). -/
def Obligations.StepRunsDecodedInstruction : Prop :=
  (∀ (s : State) (x : Delivery) (rest : List Stimulus) (i : Instr),
    s.port.busy = false → s.queue = .deliver x :: rest → decode s.dec x = .ok i →
      step s = exec i { s with queue := rest }) ∧
  (∀ (s : State) (x : Delivery) (rest : List Stimulus) (i : Instr),
    s.port.stepPending = false → s.queue = .deliver x :: rest → decode s.dec x = .ok i →
      step s =
        exec i { s with queue := rest, sink := s.sink ++ s.port.tx, port := { s.port with tx := [] } }) ∧
  (∀ (s : State) (pins : Pins) (rest : List Stimulus),
    s.queue = .cycle pins :: rest → step s = clockEdge pins { s with queue := rest }) ∧
  (∀ (s : State) (x : Delivery) (rest : List Stimulus),
    s.port.stepPending = true → s.queue = .deliver x :: rest → step s = .refused .outputsPending) ∧
  (∀ (s : State) (b : Byte) (rest : List Stimulus), b ≠ 0x06#8 → b ≠ 0x15#8 →
    s.port.stepPending = false → s.queue = .deliver (.response b) :: rest →
      step s = .refused .responseByteIllegal)

/-- The model's placement of a table word (log 14): a word that decodes is what the very next step runs. -/
def Obligations.TableWordIsRunNext : Prop :=
  ∀ (s : State) (nbits w : Nat) (i : Instr), decodeTableWord nbits w = some i →
    step (s.withFetchWord nbits w) =
      exec i { s with dec := tableRegisters s.dec (tableCode nbits w), port := Port.idle }

/-- 40_decoder.md R80: with nothing delivered, no number of steps changes anything and nothing is sent. -/
def Obligations.NothingDeliveredNothingChanges : Prop :=
  ∀ (s : State) (n : Nat), s.queue = [] → Host.Core.run core n s = .next s

/-- 30_encoding.md R45, R46, R51: words written out from the spec's encodings decode to their rows. -/
def Obligations.SpecWordsDecode : Prop :=
  decodeTableWord 16 0b00010101010 = some .wsStart ∧
  decodeTableWord 16 0b00001010101 = some (.wsSkip 0x55#8) ∧
  decodeTableWord 16 0b00100000001 = some (.rcCmd 0x01#8) ∧
  decodeTableWord 16 0b01000001010 = some (.rlLen 0x0A#8) ∧
  decodeTableWord 16 0b01000001011 = some (.rlOver 0x0B#8) ∧
  decodeTableWord 16 0b10110101010 = some (.xxResetState5 0xAA#8) ∧
  decodeTableWord 40 0xAA010101AD = some (.frameL1 0x01#8 0x01#8 0xAD#8) ∧
  decodeTableWord 64 0xAA0304_0000CC41BE = some (.frameL4 0x03#8 0#8 0#8 0xCC#8 0x41#8 0xBE#8) ∧
  decodeTableWord 8 0b00000110 = some .ack ∧ decodeTableWord 8 0b00010101 = some .nack

/-- 30_encoding.md R51: in every state of the registers and for every byte, exactly one STEP row is
selected, and it is the one decoding gives. -/
def Obligations.ExactlyOneRowSelected : Prop :=
  ∀ (d : Decoder) (b : Byte) (i : Instr),
    (stepByte i = some b ∧ rowSelected i d = true) ↔ i = decodeStep d b

/-- Decode and encode agree for every instruction: a STEP row in every state of the registers that selects
it, a FRAME row with any operands, a response, a request, reset; FRAME and BADFRAME decode to the FRAME row
of their bytes; RAW to itself where its bytes are no FRAME row. That a FRAME row decodes with any last byte,
BADFRAME to a FRAME row and other bytes to RAW is the model's choice (log 6). -/
def Obligations.DecodeInvertsEncode : Prop :=
  (∀ (d : Decoder) (i : Instr), rowSelected i d = true → decodeCode d (encode i) = .ok i) ∧
  (∀ (d : Decoder) (c : Byte) (p : List Byte) (k : Byte) (i : Instr), frameRow c p k = some i →
    decodeCode d (encode i) = .ok i) ∧
  (∀ (c : Byte) (p : List Byte) (k : Byte), p.length ≤ 10 → ∃ i, frameRow c p k = some i) ∧
  (∀ d : Decoder, decodeCode d (encode .ack) = .ok .ack ∧ decodeCode d (encode .nack) = .ok .nack ∧
    decodeCode d (encode .reset) = .ok .reset) ∧
  (∀ (d : Decoder) (cmd len : Byte) (data : List Byte),
    decodeCode d (encode (.encode cmd len data)) = .ok (.encode cmd len data)) ∧
  (∀ (d : Decoder) (c : Byte) (p : List Byte) (i : Instr),
    frameRow c p (checksum 0xAA#8 c (lengthByte p) p) = some i → decodeCode d (encode (.frame c p)) = .ok i) ∧
  (∀ (d : Decoder) (c : Byte) (p : List Byte) (k : Byte) (i : Instr),
    frameRow c p k = some i → decodeCode d (encode (.badframe c p k)) = .ok i) ∧
  (∀ (d : Decoder) (bs : List Byte), decodeFrame bs = none → decodeCode d (encode (.raw bs)) = .ok (.raw bs))

/-- Encoding inverts decoding: whatever a delivered byte or a run of bytes decodes to encodes to it again,
so no two codes share a meaning. -/
def Obligations.EncodeInvertsDecode : Prop :=
  (∀ (d : Decoder) (b : Byte), encode (decodeStep d b) = .key (d.state.code ++ b)) ∧
  (∀ bs : List Byte, encode (decodeBytes bs) = .bytes bs)

/-! ### The decoder's transitions -/

/-- 40_decoder.md R66. -/
def Obligations.StartMarkerAccepted : Prop :=
  ∀ s : State, s.dec.state = .waitStart →
    decodeStep s.dec 0xAA#8 = .wsStart ∧
    exec .wsStart s = .next { s with dec := { s.dec with startMarker := 0xAA#8, state := .readCommand } }

/-- 40_decoder.md R67. -/
def Obligations.OtherBytesDiscarded : Prop :=
  ∀ (s : State) (b : Byte), s.dec.state = .waitStart → b ≠ 0xAA#8 →
    decodeStep s.dec b = .wsSkip b ∧ exec (.wsSkip b) s = .next s

/-- 40_decoder.md R68. -/
def Obligations.CommandByteStored : Prop :=
  ∀ (s : State) (b : Byte), s.dec.state = .readCommand →
    decodeStep s.dec b = .rcCmd b ∧
    exec (.rcCmd b) s = .next { s with dec := { s.dec with commandId := b, state := .readLength } }

/-- 40_decoder.md R70. -/
def Obligations.ZeroLengthSkipsPayload : Prop :=
  ∀ s : State, s.dec.state = .readLength →
    decodeStep s.dec 0#8 = .rlZero ∧
    exec .rlZero s = .next { s with dec := { s.dec with payloadLength := 0#8, state := .readChecksum } }

/-- 40_decoder.md R71. -/
def Obligations.LegalLengthStored : Prop :=
  ∀ (s : State) (b : Byte), s.dec.state = .readLength → 1 ≤ b.toNat → b.toNat ≤ 10 →
    decodeStep s.dec b = .rlLen b ∧
    exec (.rlLen b) s =
      .next { s with dec := { s.dec with payloadLength := b, index := 0#4, state := .readPayload } }

/-- 40_decoder.md R69, 60_exceptions.md R151: raised by exactly these bytes in exactly this state; the
registers are the reset state's (what `clear_packet` leaves is the spec's D6, D7), one NACK is emitted,
nothing else changes. -/
def Obligations.LengthOverflowRejected : Prop :=
  (∀ (s : State) (b : Byte), s.dec.state = .readLength → 10 < b.toNat →
    exec (.rlOver b) s =
      .next { s with dec := Decoder.reset, log := s.log ++ [.resp 0x15#8], sink := s.sink ++ [0x15#8] }) ∧
  (∀ (d : Decoder) (b x : Byte),
    decodeStep d b = .rlOver x ↔ d.state = .readLength ∧ 10 < b.toNat ∧ x = b)

/-- 40_decoder.md R72: the byte goes to `payload[index]` with the index from before the step, every other
payload byte and every other register keeps its value; the buffer stays canonical. The bound on
`payload_length` is R76's (the spec's decision D4); the canonical form, assumed and kept, is the model's
(log 5). -/
def Obligations.PayloadByteStored : Prop :=
  ∀ (s : State) (b : Byte), s.dec.state = .readPayload → s.dec.payloadLength.toNat ≤ 10 →
    s.dec.index.toNat + 1 < s.dec.payloadLength.toNat → Memory.wf s.dec.payload = true →
    decodeStep s.dec b = .rpMore b ∧
    ∃ m : Memory,
      exec (.rpMore b) s =
        .next { s with dec := { s.dec with payload := m, index := s.dec.index + 1#4 } } ∧
      (s.dec.index + 1#4).toNat = s.dec.index.toNat + 1 ∧
      (∀ a, Memory.readByte m a = if a = s.dec.index.toNat then b else Memory.readByte s.dec.payload a) ∧
      Memory.wf m = true

/-- 40_decoder.md R73 on its well-formed registers: as above, and the decoder goes on to the checksum with
`index == payload_length`. -/
def Obligations.LastPayloadByteStored : Prop :=
  ∀ (s : State) (b : Byte), s.dec.state = .readPayload → s.dec.payloadLength.toNat ≤ 10 →
    s.dec.index.toNat + 1 = s.dec.payloadLength.toNat → Memory.wf s.dec.payload = true →
    decodeStep s.dec b = .rpLast b ∧
    ∃ m : Memory,
      exec (.rpLast b) s =
        .next { s with
          dec := { s.dec with payload := m, index := s.dec.index + 1#4, state := .readChecksum } } ∧
      (s.dec.index + 1#4).toNat = s.dec.payloadLength.toNat ∧
      (∀ a, Memory.readByte m a = if a = s.dec.index.toNat then b else Memory.readByte s.dec.payload a) ∧
      Memory.wf m = true

/-- 40_decoder.md R74: with a Dispatcher that keeps the encoder's precondition, the step emits the dispatch
with the values from before it, every frame the Dispatcher requests, then ACK, and ends in the reset state,
whatever the command id (the order with the Dispatcher's frames is the spec's D8, the registers' values D6
and D7). -/
def Obligations.MatchingChecksumDispatchesThenAcks : Prop :=
  ∀ (s : State) (k : Byte), s.dec.state = .readChecksum → s.dec.payloadLength.toNat ≤ 10 →
    k = checksum s.dec.startMarker s.dec.commandId s.dec.payloadLength
      (Memory.bytesBelow s.dec.payload s.dec.payloadLength.toNat) →
    s.nextRepliesOk →
    decodeStep s.dec k = .rkOk k ∧
    exec (.rkOk k) s =
      .next { s with
        dec := Decoder.reset
        replies := s.replies.tail
        sink := s.sink ++ framesBytes (s.replies.headD []) ++ [0x06#8]
        log := s.log ++ .dispatch s.dec.commandId s.dec.payloadLength
            (Memory.bytesBelow s.dec.payload s.dec.payloadLength.toNat) ::
          framesEvents (s.replies.headD []) ++ [.resp 0x06#8] }

/-- 40_decoder.md R75, 60_exceptions.md R152: a checksum byte that differs resets the registers (D6, D7) and
emits one NACK; nothing is dispatched. -/
def Obligations.ChecksumMismatchRejected : Prop :=
  (∀ (s : State) (k : Byte), s.dec.state = .readChecksum → s.dec.payloadLength.toNat ≤ 10 →
    k ≠ checksum s.dec.startMarker s.dec.commandId s.dec.payloadLength
      (Memory.bytesBelow s.dec.payload s.dec.payloadLength.toNat) →
    decodeStep s.dec k = .rkBad k ∧
    exec (.rkBad k) s =
      .next { s with dec := Decoder.reset, log := s.log ++ [.resp 0x15#8], sink := s.sink ++ [0x15#8] }) ∧
  (∀ (d : Decoder) (b x : Byte), decodeStep d b = .rkBad x → d.state = .readChecksum ∧ x = b)

/-- 40_decoder.md R76 (the spec's decision D4): in an unrecognised state and with malformed registers the
byte is consumed, the registers are reset, nothing is emitted. -/
def Obligations.DefensiveResetConsumesByte : Prop :=
  (∀ (s : State) (b : Byte), s.dec.state = .code5 →
    decodeStep s.dec b = .xxResetState5 b ∧
    exec (.xxResetState5 b) s = .next { s with dec := Decoder.reset }) ∧
  (∀ (s : State) (b : Byte), s.dec.state = .code6 →
    decodeStep s.dec b = .xxResetState67 0#1 b ∧
    exec (.xxResetState67 0#1 b) s = .next { s with dec := Decoder.reset }) ∧
  (∀ (s : State) (b : Byte), s.dec.state = .code7 →
    decodeStep s.dec b = .xxResetState67 1#1 b ∧
    exec (.xxResetState67 1#1 b) s = .next { s with dec := Decoder.reset }) ∧
  (∀ (s : State) (b : Byte), s.dec.state = .readPayload →
    (10 < s.dec.payloadLength.toNat ∨ s.dec.payloadLength.toNat ≤ s.dec.index.toNat) →
    decodeStep s.dec b = .xxResetMalformed 3#3 b ∧
    exec (.xxResetMalformed 3#3 b) s = .next { s with dec := Decoder.reset }) ∧
  (∀ (s : State) (b : Byte), s.dec.state = .readChecksum → 10 < s.dec.payloadLength.toNat →
    decodeStep s.dec b = .xxResetMalformed 4#3 b ∧
    exec (.xxResetMalformed 4#3 b) s = .next { s with dec := Decoder.reset })

/-- 40_decoder.md R77: the whole-step function and the individual rows agree in every state, with every
Dispatcher, for every byte. -/
def Obligations.WholeStepAgreesWithRows : Prop :=
  ∀ (s : State) (b : Byte), exec (decodeStep s.dec b) s = deliverByte b s

/-- The model's stop (log 15): a STEP row is refused by name exactly where its encoding's condition does not
hold, so `step` never meets that stop. -/
def Obligations.UnselectedRowRefused : Prop :=
  (∀ (i : Instr) (s : State) (b : Byte), stepByte i = some b →
    (exec i s = .refused .rowNotSelected ↔ rowSelected i s.dec = false)) ∧
  (∀ s : State, step s ≠ .refused .rowNotSelected)

/-- 20_memory.md R34, 40_decoder.md R65: no byte is ever refused and no step blocks: with the last step
finished and a Dispatcher that keeps the encoder's precondition, delivering any byte in any state answers a
next state, also while an outside ENCODE's frame is on the transmit port (log 9). -/
def Obligations.EveryDeliveredByteIsTaken : Prop :=
  ∀ (s : State) (b : Byte) (rest : List Stimulus), s.port.stepPending = false →
    s.queue = .deliver (.byte b) :: rest → s.nextRepliesOk →
    ∃ t, step s = .next t ∧ t.queue = rest ∧ t.dec = (decStep s.dec b).1

/-- 40_decoder.md R78, 42_dispatch.md R91, 44_response.md R112: what a step may emit, and when. -/
def Obligations.OutputsOfOneStep : Prop :=
  ∀ (d : Decoder) (b : Byte),
    ((decStep d b).2 = [] ∨
      ((decStep d b).2 = [.resp 0x15#8] ∧
        (decodeStep d b = .rlOver b ∨ decodeStep d b = .rkBad b)) ∨
      ((decStep d b).2 =
          [.dispatch d.commandId d.payloadLength
            (Memory.bytesBelow d.payload d.payloadLength.toNat), .resp 0x06#8] ∧
        decodeStep d b = .rkOk b ∧ d.payloadLength.toNat ≤ 10)) ∧
    (d.Inv → (responseCount (decStep d b).2 = 1 ↔
      d.state ≠ .waitStart ∧ (decStep d b).1.state = .waitStart))

/-- 40_decoder.md R79: outside `WaitStart` the marker value is data: it never begins a frame. -/
def Obligations.MarkerInsideFrameIsData : Prop :=
  ∀ d : Decoder, d.state ≠ .waitStart →
    (decStep d 0xAA#8).1.state ≠ .readCommand ∧
    (d.state = .readCommand → (decStep d 0xAA#8).1.commandId = 0xAA#8) ∧
    (d.state = .readLength → decStep d 0xAA#8 = (Decoder.reset, [.resp 0x15#8])) ∧
    (d.state = .readPayload → d.malformed = false → Memory.wf d.payload = true →
      Memory.readByte (decStep d 0xAA#8).1.payload d.index.toNat = 0xAA#8)

/-! ### Frames of the meanings -/

/-- 40_decoder.md R66 to R73, R76: the rows without output leave the channels, the Dispatcher and the ports
alone, and each packet register but the ones the row writes; XX.RESET alone writes all of them (its values
are the spec's decisions D4, D6, D7). -/
def Obligations.QuietRowsFrame : Prop :=
  ∀ (i : Instr) (b : Byte) (s t : State), stepByte i = some b →
    (∀ k, i ≠ .rkOk k) → (∀ k, i ≠ .rkBad k) → (∀ x, i ≠ .rlOver x) → exec i s = .next t →
    t.queue = s.queue ∧ t.replies = s.replies ∧ t.sink = s.sink ∧ t.log = s.log ∧ t.port = s.port ∧
    ((∃ x, i = .xxResetState5 x ∨ (∃ lo, i = .xxResetState67 lo x) ∨ ∃ st, i = .xxResetMalformed st x) →
      t.dec = Decoder.reset) ∧
    ((∀ x, i ≠ .xxResetState5 x ∧ (∀ lo, i ≠ .xxResetState67 lo x) ∧ ∀ st, i ≠ .xxResetMalformed st x) →
      (i ≠ .wsStart → t.dec.startMarker = s.dec.startMarker) ∧
      ((∀ c, i ≠ .rcCmd c) → t.dec.commandId = s.dec.commandId) ∧
      (i ≠ .rlZero → (∀ l, i ≠ .rlLen l) → t.dec.payloadLength = s.dec.payloadLength) ∧
      ((∀ l, i ≠ .rlLen l) → (∀ p, i ≠ .rpMore p) → (∀ p, i ≠ .rpLast p) → t.dec.index = s.dec.index) ∧
      ((∀ p, i ≠ .rpMore p) → (∀ p, i ≠ .rpLast p) → t.dec.payload = s.dec.payload))

/-- 20_memory.md R31: a storing row changes the one byte at `index` and no other byte of the buffer. -/
def Obligations.StoringRowsFrame : Prop :=
  ∀ (s t : State) (p : Byte), Memory.wf s.dec.payload = true →
    (exec (.rpMore p) s = .next t ∨ exec (.rpLast p) s = .next t) →
    s.dec.index.toNat < s.dec.payloadLength.toNat ∧ s.dec.payloadLength.toNat ≤ 10 ∧
    (∀ a, a ≠ s.dec.index.toNat → Memory.memRead t.dec.payload a = Memory.memRead s.dec.payload a) ∧
    Memory.memRead t.dec.payload s.dec.index.toNat = some p

/-- The rows that answer a frame attempt leave the queue and the ports alone; only the match asks the
Dispatcher; what they append to the sink is the bytes of what they append to the log. -/
def Obligations.AnsweringRowsFrame : Prop :=
  ∀ (i : Instr) (s t : State), (∃ k, i = .rkOk k ∨ i = .rkBad k ∨ i = .rlOver k) → exec i s = .next t →
    t.queue = s.queue ∧ t.port = s.port ∧ t.dec = Decoder.reset ∧
    ((∀ k, i ≠ .rkOk k) → t.replies = s.replies) ∧
    ∃ es, t.log = s.log ++ es ∧ t.sink = s.sink ++ sinkOf es ∧ responseCount es = 1

/-- 10_state.md R18, 43_encoder.md R106: an `ENCODE` touches no decoder register, and appends exactly its
bytes to the sink; so does a response executed as a row by itself, which is the model's (log 7). -/
def Obligations.SinkRowsLeaveDecoderAlone : Prop :=
  ∀ (i : Instr) (s t : State),
    (i = .ack ∨ i = .nack ∨ ∃ cmd len data, i = .encode cmd len data) → exec i s = .next t →
    t.dec = s.dec ∧ t.queue = s.queue ∧ t.replies = s.replies ∧ t.port = s.port ∧
    ∃ e, t.log = s.log ++ [e] ∧ t.sink = s.sink ++ e.sinkBytes ∧ e.Legal

/-! ### Responses, the encoder, frames as rows -/

/-- 44_response.md R110, R111: in a decoder step ACK comes from the match only, after the dispatch, and NACK
from the two rejections only. That ACK and NACK are also rows executed by themselves, in any state, each its
one byte on the sink, is the model's (log 7). -/
def Obligations.ResponseBytesAndCauses : Prop :=
  (∀ s : State, exec .ack s =
    .next { s with log := s.log ++ [.resp 0x06#8], sink := s.sink ++ [0x06#8] }) ∧
  (∀ s : State, exec .nack s =
    .next { s with log := s.log ++ [.resp 0x15#8], sink := s.sink ++ [0x15#8] }) ∧
  (∀ (d : Decoder) (b : Byte), Event.resp 0x06#8 ∈ (decStep d b).2 ↔
    decodeStep d b = .rkOk b ∧
      ∃ c n p, (decStep d b).2 = [.dispatch c n p, .resp 0x06#8]) ∧
  (∀ (d : Decoder) (b : Byte), Event.resp 0x15#8 ∈ (decStep d b).2 ↔
    decodeStep d b = .rlOver b ∨ decodeStep d b = .rkBad b)

/-- 43_encoder.md R100: inside its domain `ENCODE` emits the one frame of the first `len` bytes (that the bytes
beyond `len` are ignored is the spec's D11). -/
def Obligations.EncodeEmitsFrame : Prop :=
  ∀ (s : State) (cmd len : Byte) (data : List Byte), len.toNat ≤ 10 → len.toNat ≤ data.length →
    ∃ f : List Byte,
      f = [0xAA#8, cmd, len] ++ data.take len.toNat ++ [checksum 0xAA#8 cmd len (data.take len.toNat)] ∧
      exec (.encode cmd len data) s =
        .next { s with log := s.log ++ [.tx f], sink := s.sink ++ f }

/-- 43_encoder.md R104, R105 (the spec's decisions D10, D11) and 30_encoding.md R58: `ENCODE` outside its
domain, and FRAME and BADFRAME outside their "defined when", are refused by name. -/
def Obligations.RequestsOutsideTheirDomainRefused : Prop :=
  (∀ (s : State) (cmd len : Byte) (data : List Byte),
    (10 < len.toNat → exec (.encode cmd len data) s = .refused .encodeLengthOverMax) ∧
    (len.toNat ≤ 10 → data.length < len.toNat → exec (.encode cmd len data) s = .refused .encodeDataShort)) ∧
  (∀ (s : State) (c : Byte) (p : List Byte), 10 < p.length →
    exec (.frame c p) s = .refused .pseudoUndefined) ∧
  (∀ (s : State) (c : Byte) (p : List Byte) (k : Byte),
    10 < p.length ∨ k = checksum 0xAA#8 c (lengthByte p) p →
    exec (.badframe c p k) s = .refused .pseudoUndefined)

/-- 30_encoding.md R45 with 40_decoder.md R77: every FRAME row, with any operands and in any state of the
decoder, completes, and its effect is that of the decoder run over its bytes, first byte first: the
registers the run ends in, and the run's events performed in order. -/
def Obligations.FrameRowsRunTheirBytes : Prop :=
  ∀ (s : State) (c p0 p1 p2 p3 p4 p5 p6 p7 p8 p9 k : Byte) (i : Instr) (bs : List Byte), s.allRepliesOk →
    (i, bs) ∈ ([
      (.frameL0 c k, [0xAA#8, c, 0#8, k]),
      (.frameL1 c p0 k, [0xAA#8, c, 1#8, p0, k]),
      (.frameL2 c p0 p1 k, [0xAA#8, c, 2#8, p0, p1, k]),
      (.frameL3 c p0 p1 p2 k, [0xAA#8, c, 3#8, p0, p1, p2, k]),
      (.frameL4 c p0 p1 p2 p3 k, [0xAA#8, c, 4#8, p0, p1, p2, p3, k]),
      (.frameL5 c p0 p1 p2 p3 p4 k, [0xAA#8, c, 5#8, p0, p1, p2, p3, p4, k]),
      (.frameL6 c p0 p1 p2 p3 p4 p5 k, [0xAA#8, c, 6#8, p0, p1, p2, p3, p4, p5, k]),
      (.frameL7 c p0 p1 p2 p3 p4 p5 p6 k, [0xAA#8, c, 7#8, p0, p1, p2, p3, p4, p5, p6, k]),
      (.frameL8 c p0 p1 p2 p3 p4 p5 p6 p7 k, [0xAA#8, c, 8#8, p0, p1, p2, p3, p4, p5, p6, p7, k]),
      (.frameL9 c p0 p1 p2 p3 p4 p5 p6 p7 p8 k, [0xAA#8, c, 9#8, p0, p1, p2, p3, p4, p5, p6, p7, p8, k]),
      (.frameL10 c p0 p1 p2 p3 p4 p5 p6 p7 p8 p9 k, [0xAA#8, c, 10#8, p0, p1, p2, p3, p4, p5, p6, p7, p8, p9, k])] : List (Instr × List Byte)) →
    ∃ t, exec i s = .next t ∧ t.dec = (decRun s.dec bs).1 ∧ t.queue = s.queue ∧ t.port = s.port ∧
      perform (decRun s.dec bs).2 { s with dec := (decRun s.dec bs).1 } = .next t

/-- 30_encoding.md R58 with 40_decoder.md R77: FRAME, BADFRAME and RAW, where they are defined and in any
state of the decoder, complete, and their effect is that of the decoder run over their expansion. -/
def Obligations.PseudoInstructionsRunTheirExpansion : Prop :=
  ∀ (s : State) (i : Instr) (bs : List Byte), s.allRepliesOk →
    ((∃ c p, p.length ≤ 10 ∧ i = .frame c p ∧
        bs = [0xAA#8, c, lengthByte p] ++ p ++ [checksum 0xAA#8 c (lengthByte p) p]) ∨
      (∃ c p k, p.length ≤ 10 ∧ k ≠ checksum 0xAA#8 c (lengthByte p) p ∧ i = .badframe c p k ∧
        bs = [0xAA#8, c, lengthByte p] ++ p ++ [k]) ∨
      i = .raw bs) →
    ∃ t, exec i s = .next t ∧ t.dec = (decRun s.dec bs).1 ∧ t.queue = s.queue ∧ t.port = s.port ∧
      perform (decRun s.dec bs).2 { s with dec := (decRun s.dec bs).1 } = .next t

/-- 46_properties.md R135 through the whole machine (a whole FRAME row in one step is the model's, log 6): a
FRAME row with the right checksum, and FRAME, from the reset state of the decoder, is dispatched with exactly
its command and payload, then acknowledged. That the Dispatcher's frames stand between, before the ACK, is the
spec's own decision D8 (20_memory.md R41, 42_dispatch.md R93; log 18). -/
def Obligations.GoodFrameIsDispatched : Prop :=
  ∀ (s : State) (c : Byte) (p : List Byte) (i : Instr), s.dec = Decoder.reset → p.length ≤ 10 →
    s.nextRepliesOk →
    (frameRow c p (checksum 0xAA#8 c (lengthByte p) p) = some i ∨ i = .frame c p) →
    exec i s =
      .next { s with
        replies := s.replies.tail
        sink := s.sink ++ framesBytes (s.replies.headD []) ++ [0x06#8]
        log := s.log ++ .dispatch c (lengthByte p) p ::
          framesEvents (s.replies.headD []) ++ [.resp 0x06#8] }

/-- 46_properties.md R136 (row 3), 40_decoder.md R75 through the whole machine: a FRAME row with a wrong
checksum byte, and BADFRAME, from the reset state of the decoder, gives one NACK and no dispatch. A FRAME row
with a last byte other than the checksum, and a whole frame in one step, are the model's choice (log 6). -/
def Obligations.BadFrameIsRejected : Prop :=
  ∀ (s : State) (c : Byte) (p : List Byte) (k : Byte) (i : Instr), s.dec = Decoder.reset →
    p.length ≤ 10 → k ≠ checksum 0xAA#8 c (lengthByte p) p →
    (frameRow c p k = some i ∨ i = .badframe c p k) →
    exec i s = .next { s with log := s.log ++ [.resp 0x15#8], sink := s.sink ++ [0x15#8] }

/-- A run of bytes delivered in one model step is the run of its bytes delivered one a step (log 6), also
with an outside ENCODE's frame on the transmit port, which the first step finishes (log 9). -/
def Obligations.RunOfBytesIsByteSteps : Prop :=
  ∀ (s : State) (bs : List Byte) (rest : List Stimulus), s.port.stepPending = false →
    (s.port.tx = [] ∨ bs ≠ []) →
    step { s with queue := .deliver (.bytes bs) :: rest } =
      Host.Core.run core bs.length
        { s with queue := bs.map (fun b => Stimulus.deliver (.byte b)) ++ rest }

/-! ### Checksum and encoder -/

/-- 41_checksum.md R85: the checksum is the sum of its bytes modulo 256; truncating once at the end equals
truncating after every addition; the largest sum is 2985; the worked example. -/
def Obligations.ChecksumIsSumModulo256 : Prop :=
  (∀ (sm cmd n : Byte) (p : List Byte),
    (checksum sm cmd n p).toNat =
      (sm.toNat + cmd.toNat + n.toNat + (p.map BitVec.toNat).sum) % 256 ∧
    checksum sm cmd n p = p.foldl (· + ·) (sm + cmd + n)) ∧
  (∀ (cmd n : Byte) (p : List Byte), n.toNat = p.length → p.length ≤ 10 →
    0xAA + cmd.toNat + n.toNat + (p.map BitVec.toNat).sum ≤ 2985) ∧
  checksum 0xAA#8 0x01#8 0x01#8 [0x01#8] = 0xAD#8

/-- 41_checksum.md R88, items 1, 2 and 4: a change of one summed byte changes the checksum, a permutation of
the payload does not, two changes can cancel, and the checksum is a bijection of each payload byte. -/
def Obligations.ChecksumDetectsOneChange : Prop :=
  (∀ (sm c c' n : Byte) (p : List Byte), c ≠ c' → checksum sm c n p ≠ checksum sm c' n p) ∧
  (∀ (sm c n : Byte) (p q : List Byte) (x y : Byte), x ≠ y →
    checksum sm c n (p ++ x :: q) ≠ checksum sm c n (p ++ y :: q)) ∧
  (∀ (sm c n : Byte) (p q : List Byte), p.Perm q → checksum sm c n p = checksum sm c n q) ∧
  (∀ (sm c n d : Byte) (p : List Byte) (x : Byte),
    checksum sm (c + d) n ((x - d) :: p) = checksum sm c n (x :: p)) ∧
  (∀ (sm c n : Byte) (p q : List Byte), Function.Bijective fun x => checksum sm c n (p ++ x :: q))

/-- 46_properties.md R143: length, marker, well-formedness and injectivity of the encoder's output; and
30_encoding.md R50: every well-formed frame is the encoder's output for its command and payload. -/
def Obligations.EncoderOutputs : Prop :=
  (∀ (c : Byte) (p : List Byte), p.length ≤ 10 →
    (encodeFrame c p).length = 4 + p.length ∧ (encodeFrame c p)[0]? = some 0xAA#8 ∧
      wellFormedFrame (encodeFrame c p) = true) ∧
  (∀ (c c' : Byte) (p p' : List Byte), p.length ≤ 10 → p'.length ≤ 10 →
    encodeFrame c p = encodeFrame c' p' → c = c' ∧ p = p') ∧
  (∀ f : List Byte, wellFormedFrame f = true →
    ∃ (c : Byte) (p : List Byte), p.length ≤ 10 ∧ f = encodeFrame c p)

/-! ### Streams from the reset state -/

/-- 46_properties.md R135 (that every register is 0 again at the end is the spec's D6, D7). -/
def Obligations.EncodedFrameRoundTrips : Prop :=
  ∀ (c : Byte) (p : List Byte), p.length ≤ 10 →
    decRun Decoder.reset (encodeFrame c p) =
      (Decoder.reset, [.dispatch c (lengthByte p) p, .resp 0x06#8])

/-- 46_properties.md R144: a proper beginning of a frame emits nothing and leaves the decoder in flight. -/
def Obligations.FrameInFlightIsSilent : Prop :=
  ∀ (c : Byte) (p : List Byte) (k : Nat), p.length ≤ 10 → k < 4 + p.length →
    (decRun Decoder.reset ((encodeFrame c p).take k)).2 = [] ∧
    (0 < k → (decRun Decoder.reset ((encodeFrame c p).take k)).1.state ≠ .waitStart)

/-- 46_properties.md R136, rows 1 to 3: any change of the command, of one payload byte or of the checksum
byte of a well-formed frame gives one NACK, at its last byte, and no dispatch. -/
def Obligations.OneChangedByteIsRejected : Prop :=
  ∀ (c : Byte) (p : List Byte) (j : Nat) (x : Byte), p.length ≤ 10 →
    (j = 1 ∨ (3 ≤ j ∧ j ≤ 3 + p.length)) → (encodeFrame c p)[j]? ≠ some x →
    decRun Decoder.reset ((encodeFrame c p).set j x) = (Decoder.reset, [.resp 0x15#8]) ∧
    (decRun Decoder.reset (((encodeFrame c p).set j x).take (3 + p.length))).2 = []

/-- 46_properties.md R136, rows 4 and 5: what a changed marker or length byte does. -/
def Obligations.ChangedMarkerOrLength : Prop :=
  ∀ (c : Byte) (p : List Byte) (x : Byte), p.length ≤ 10 →
    (x ≠ 0xAA#8 → decRun Decoder.reset ((encodeFrame c p).set 0 x) =
      decRun Decoder.reset ((encodeFrame c p).drop 1)) ∧
    (10 < x.toNat → decRun Decoder.reset (((encodeFrame c p).set 2 x).take 3) =
      (Decoder.reset, [.resp 0x15#8])) ∧
    (x.toNat < p.length →
      decRun Decoder.reset (((encodeFrame c p).set 2 x).take (4 + x.toNat)) =
        (Decoder.reset,
          if p[x.toNat]? = some (checksum 0xAA#8 c x (p.take x.toNat)) then
            [.dispatch c x (p.take x.toNat), .resp 0x06#8]
          else [.resp 0x15#8])) ∧
    (p.length < x.toNat → x.toNat ≤ 10 →
      (decRun Decoder.reset ((encodeFrame c p).set 2 x)).2 = [] ∧
      ((decRun Decoder.reset ((encodeFrame c p).set 2 x)).1.state = .readPayload ∨
        (decRun Decoder.reset ((encodeFrame c p).set 2 x)).1.state = .readChecksum))

/-- 46_properties.md R137 (the registers' values after it are the spec's D6, D7). -/
def Obligations.LengthBoundEnforced : Prop :=
  (∀ (d : Decoder) (b : Byte), d.state = .readLength → 10 < b.toNat →
    decStep d b = (Decoder.reset, [.resp 0x15#8])) ∧
  (∀ c b : Byte, 10 < b.toNat →
    decRun Decoder.reset [0xAA#8, c, b] = (Decoder.reset, [.resp 0x15#8]))

/-- 46_properties.md R138: garbage without the marker value before a frame is ignored. -/
def Obligations.GarbageIsSkipped : Prop :=
  ∀ (g : List Byte) (c : Byte) (p : List Byte), (∀ b ∈ g, b ≠ 0xAA#8) → p.length ≤ 10 →
    decRun Decoder.reset (g ++ encodeFrame c p) =
      (Decoder.reset, [.dispatch c (lengthByte p) p, .resp 0x06#8])

/-- 46_properties.md R139: every step that returns to `WaitStart` from another state, and every step that
emits a response, ends in the reset state (the spec's D7), and so does the defensive reset (D4). -/
def Obligations.ReturnIsFullReset : Prop :=
  ∀ (d : Decoder) (b : Byte),
    (d.state ≠ .waitStart → (decStep d b).1.state = .waitStart → (decStep d b).1 = Decoder.reset) ∧
    (responseCount (decStep d b).2 ≠ 0 → (decStep d b).1 = Decoder.reset) ∧
    (d.malformed = true → decStep d b = (Decoder.reset, []))

/-- 46_properties.md R142: streams compose, and frames with marker-free garbage before each are decoded
frame by frame. -/
def Obligations.ConsecutiveFramesIndependent : Prop :=
  (∀ (d : Decoder) (u v : List Byte),
    decRun d (u ++ v) =
      ((decRun (decRun d u).1 v).1, (decRun d u).2 ++ (decRun (decRun d u).1 v).2)) ∧
  (∀ fs : List (List Byte × Byte × List Byte),
    (∀ f ∈ fs, (∀ b ∈ f.1, b ≠ 0xAA#8) ∧ f.2.2.length ≤ 10) →
    decRun Decoder.reset (fs.flatMap fun f => f.1 ++ encodeFrame f.2.1 f.2.2) =
      (Decoder.reset,
        fs.flatMap fun f => [.dispatch f.2.1 (lengthByte f.2.2) f.2.2, .resp 0x06#8]))

/-- 70_reset_and_hazards.md R187: eleven bytes of one value above `MAX_PAYLOAD` other than the marker bring
the decoder from every state of R21 to the reset state, with exactly one response if it was in flight. -/
def Obligations.FlushReturnsToReset : Prop :=
  ∀ (d : Decoder) (v : Byte), d.Inv → 10 < v.toNat → v ≠ 0xAA#8 →
    (decRun d (List.replicate 11 v)).1 = Decoder.reset ∧
    responseCount (decRun d (List.replicate 11 v)).2 = (if d.state = .waitStart then 0 else 1)

/-! ### The Dispatcher -/

/-- 45_interfaces.md R123: the machine's byte step is `SysStep` with the Dispatcher held in State: the same
registers, the same answers left, the same sink; it stops exactly where a request violates the encoder's
precondition. -/
def Obligations.ByteStepIsSystemStep : Prop :=
  ∀ (s : State) (b : Byte),
    match deliverByte b s with
    | .next t => sysStep scripted s.dec s.replies s.sink b = some (t.dec, t.replies, t.sink)
    | .refused _ => sysStep scripted s.dec s.replies s.sink b = none
    | .fault _ => False

/-- 42_dispatch.md R96: for every Dispatcher, on every stream, some list of answers makes the machine's
Dispatcher behave the same, so a statement for all answers covers all Dispatchers (log 3). -/
def Obligations.ScriptCoversEveryDispatcher : Prop :=
  ∀ (Env : Type) (D : Dispatcher Env) (env : Env) (d : Decoder) (sink bs : List Byte),
    ∃ script : List (List EncodeRequest),
      (sysRun scripted d script sink bs).map (fun r => (r.1, r.2.2)) =
        (sysRun D d env sink bs).map (fun r => (r.1, r.2.2))

/-! ### Invariants and stops -/

/-- The reset state meets the invariant (10_state.md R21, R22). -/
def Obligations.ResetMeetsInvariant : Prop := State.reset.Inv

/-- 10_state.md R21, 45_interfaces.md R120, R121: every step from a state that meets the invariant leads to
one that does: the registers stay in the table of R21, the payload buffer canonical, everything emitted
legal, the sink and the transmit port together hold exactly what was emitted. -/
def Obligations.StepKeepsInvariant : Prop :=
  ∀ s t : State, s.Inv → step s = .next t → t.Inv

/-- 46_properties.md R140, 20_memory.md R33: from no state at all does a step or an instruction fault, and
from every state with a canonical payload buffer (log 5: cells at addresses 0 to 9 only) every step and every
instruction, whichever way it stores, leaves one: no cell outside the ten bytes is ever made. -/
def Obligations.NoStepFaults : Prop :=
  (∀ (s : State) (f : Fault), step s ≠ .fault f) ∧
  (∀ (i : Instr) (s : State) (f : Fault), exec i s ≠ .fault f) ∧
  (∀ s t : State, Memory.wf s.dec.payload = true → step s = .next t → Memory.wf t.dec.payload = true) ∧
  (∀ (i : Instr) (s t : State), Memory.wf s.dec.payload = true → exec i s = .next t →
    Memory.wf t.dec.payload = true)

/-! ### Ports (the spec's own binding, D13) -/

/-- 45_interfaces.md R125, R126: `rx_ready` is 0 under reset and while a step's outputs are pending, else 1;
a clock edge steps the decoder exactly when `rx_valid` and `rx_ready` are both 1, resets it under `rst`, and
else leaves it alone. Outputs come to be pending exactly at an edge that delivers a byte whose step emits
something, and stay pending until the transmit port transfers the last of them, the response, with nothing
behind it (the dispatch before it is `PortHoldsResponseUntilDispatchDone`'s). -/
def Obligations.PortDeliversOnHandshake : Prop :=
  (∀ (pins : Pins) (s : State),
    (s.port.signals pins).rxReady = true ↔ pins.rst = false ∧ s.port.stepPending = false) ∧
  (∀ (pins : Pins) (s t : State), clockEdge pins s = .next t →
    (pins.rst = true → t.dec = Decoder.reset) ∧
    (pins.rxValid = true → (s.port.signals pins).rxReady = true → t.dec = (decStep s.dec pins.rxData).1) ∧
    (pins.rst = false → (pins.rxValid = false ∨ (s.port.signals pins).rxReady = false) → t.dec = s.dec) ∧
    t.queue = s.queue ∧ t.replies = s.replies) ∧
  (∀ (pins : Pins) (s t : State), clockEdge pins s = .next t → s.port.stepPending = false →
    (t.port.stepPending = true ↔
      pins.rxValid = true ∧ (s.port.signals pins).rxReady = true ∧ (decStep s.dec pins.rxData).2 ≠ [])) ∧
  (∀ (pins : Pins) (s t : State), s.Inv → clockEdge pins s = .next t → s.port.stepPending = true →
    (t.port.stepPending = false ↔
      s.port.out = [] ∧ pins.txReady = true ∧ ∃ b, (s.port.signals pins).tx = some (b, true)))

/-- 45_interfaces.md R128, the encoder port, and where a clock edge stops. It stops in two cases only: reset
while a step's outputs are pending (70_reset_and_hazards.md R176, log 11) and a granted request with
`enc_len > MAX_PAYLOAD` (43_encoder.md R104, log 8); else it completes. `enc_ready` is 1 exactly when the
transmit port holds no sequence and no step's outputs are pending or a dispatch is presented; that the
implementation may withhold it is log 10, that it is 0 in a cycle that delivers a byte is log 17, that `rst`
does not withhold it is log 20. A request granted outside a dispatch puts exactly its frame on the transmit
port and leaves the decoder alone (R106). Byte `i` of `enc_payload` is in bits `8i+7` to `8i`. -/
def Obligations.ClockEdgeCompletes : Prop :=
  (∀ (pins : Pins) (s : State),
    (pins.rst = true → s.port.stepPending = true →
      clockEdge pins s = .refused .resetWhileOutputsPending) ∧
    ((pins.rst = false ∨ s.port.stepPending = false) →
      pins.encValid = true → (s.port.signals pins).encReady = true → 10 < pins.encLen.toNat →
      clockEdge pins s = .refused .encodeLengthOverMax) ∧
    ((pins.rst = false ∨ s.port.stepPending = false) →
      (pins.encValid = false ∨ (s.port.signals pins).encReady = false ∨ pins.encLen.toNat ≤ 10) →
      ∃ t, clockEdge pins s = .next t) ∧
    ((s.port.signals pins).encReady = true ↔
      s.port.tx = [] ∧ (s.port.out = [] ∨ (s.port.signals pins).disp ≠ none) ∧ pins.encGo = true ∧
        (pins.rxValid = false ∨ (s.port.signals pins).rxReady = false))) ∧
  (∀ (pins : Pins) (s : State), pins.encValid = true → (s.port.signals pins).encReady = true →
    s.port.out = [] → pins.encLen.toNat ≤ 10 →
    ∃ (f : List Byte) (t : State),
      f = [0xAA#8, pins.encCmd, pins.encLen] ++ (busBytes pins.encPayload).take pins.encLen.toNat ++
        [checksum 0xAA#8 pins.encCmd pins.encLen ((busBytes pins.encPayload).take pins.encLen.toNat)] ∧
      clockEdge pins s = .next t ∧ t.port.tx = f ∧ t.port.out = [] ∧ t.log = s.log ++ [.tx f] ∧
      t.sink = s.sink ∧ t.dec = (if pins.rst then Decoder.reset else s.dec)) ∧
  (∀ (v : BitVec 80) (i j : Nat), i < 10 → j < 8 →
    (busBytes v).length = 10 ∧ ((busBytes v).getD i 0#8).getLsbD j = v.getLsbD (8 * i + j))

/-- 45_interfaces.md R127: one byte is transferred in exactly the cycles where `tx_valid` and `tx_ready` are
both 1, and until a sequence is through no other one takes its place. -/
def Obligations.PortSequencesAreContiguous : Prop :=
  ∀ (pins : Pins) (s t : State), clockEdge pins s = .next t →
    (∀ b last, (s.port.signals pins).tx = some (b, last) → pins.txReady = true →
      t.sink = s.sink ++ [b] ∧ s.port.tx.head? = some b ∧ (last = true ↔ s.port.tx.length = 1) ∧
      (last = false → t.port.tx = s.port.tx.tail)) ∧
    (((s.port.signals pins).tx = none ∨ pins.txReady = false) →
      t.sink = s.sink ∧ (s.port.tx ≠ [] → t.port.tx = s.port.tx))

/-- 45_interfaces.md R122, R128: the dispatch is presented by value; `disp_valid`, once raised in a cycle
without `disp_done`, is 1 with the same values in the next cycle whatever its inputs, and so on until
`disp_done` answers it as presented; before that, with or without `disp_done`, it stays pending; the response
behind it is not taken up before. On the payload bus byte `i` of the payload is in bits `8i+7` to `8i`, and
0x00 stands beyond its end (the spec's decision D21). -/
def Obligations.PortHoldsResponseUntilDispatchDone : Prop :=
  (∀ (pins : Pins) (s t : State) (c n : Byte) (p : List Byte) (es : List Event),
    s.port.out = .dispatch c n p :: es → clockEdge pins s = .next t →
    (s.port.dispShown = true → (s.port.signals pins).disp = some (c, n, busOf p)) ∧
    (pins.dispDone = false → t.port.out = s.port.out ∧
      ((s.port.signals pins).disp ≠ none →
        (s.port.signals pins).disp = some (c, n, busOf p) ∧ t.port.dispShown = true ∧
        ∀ later : Pins, (t.port.signals later).disp = some (c, n, busOf p))) ∧
    ((s.port.signals pins).disp = none → t.port.out = s.port.out ∧ t.port.dispShown = false) ∧
    (pins.dispDone = true → (s.port.signals pins).disp ≠ none → t.port.dispShown = false ∧
      (t.port.out = es ∨ ∃ b rest, es = .resp b :: rest ∧ t.port.out = rest ∧ t.port.tx = [b]))) ∧
  (∀ (p : List Byte) (i j : Nat), i < 10 → j < 8 →
    (busOf p).getLsbD (8 * i + j) = (p.getD i 0#8).getLsbD j)

/-- 45_interfaces.md R126 to R128 against R123: a byte delivered through the ports whose step answers with
one NACK reaches the same registers, sink and events as the transaction, also while an outside ENCODE's frame
is on the transmit port: its rest, then the response (20_memory.md R35). That one edge more than the bytes
suffices (the response taken up in the edge that frees the port and presented at the next) is the model's
choice (logs 10, 17), and so is what the transaction does with the frame's rest (log 9). -/
def Obligations.PortRejectionMatchesTransaction : Prop :=
  ∀ (s : State) (b : Byte) (rest : List Stimulus),
    s.port.stepPending = false → (decStep s.dec b).2 = [.resp 0x15#8] →
    ∃ t u : State,
      Host.Core.run core (s.port.tx.length + 2)
        { s with
          queue :=
            .cycle (Pins.receive b) ::
              (List.replicate (s.port.tx.length + 1) (.cycle Pins.transmit) ++ rest) } = .next t ∧
      step { s with queue := .deliver (.byte b) :: rest } = .next u ∧
      t.sink = s.sink ++ s.port.tx ++ [0x15#8] ∧
      t.dec = u.dec ∧ t.sink = u.sink ∧ t.log = u.log ∧ t.queue = u.queue ∧ t.port.busy = false

/-- 20_memory.md R41 at the ports (the order is the spec's decision D8): a matching frame whose Dispatcher
requests any number of frames during the dispatch puts each whole frame and then the ACK on the sink, as
the transaction with the same requests does. The number of edges of this schedule is the model's choice
(logs 10, 17), the binding the spec's decision D13. -/
def Obligations.PortDispatchMatchesTransaction : Prop :=
  ∀ (s : State) (b : Byte) (reqs : List (Byte × Byte × BitVec 80)) (rest : List Stimulus),
    s.port.busy = false → s.port.dispShown = false → decodeStep s.dec b = .rkOk b →
    (∀ r ∈ reqs, r.2.1.toNat ≤ 10) →
    ∃ t u : State,
      Host.Core.run core (3 + (reqs.map fun r => 5 + r.2.1.toNat).sum)
        { s with
          queue :=
            .cycle (Pins.receive b) ::
              (reqs.flatMap fun r =>
                .cycle (Pins.encodeInDispatch r.1 r.2.1 r.2.2) ::
                  List.replicate (4 + r.2.1.toNat) (.cycle Pins.transmit)) ++
              .cycle Pins.dispatchDone :: .cycle Pins.transmit :: rest } = .next t ∧
      step
        { s with
          queue := .deliver (.byte b) :: rest
          replies := [reqs.map fun r => ⟨r.1, r.2.1, busBytes r.2.2⟩] } = .next u ∧
      t.dec = u.dec ∧ t.sink = u.sink ∧ t.log = u.log ∧ t.queue = u.queue ∧ t.port.busy = false
end

