-- ==== Sys2Proof/Laws/State.lean ====
section
/-!
SUPPORT. What each named update of the state leaves in each field, true by rfl.
-/

namespace Sys2Proof.Machine

section Updates

variable (s : State) (d : Decoder) (q : List Stimulus) (r : List (List EncodeRequest)) (p : Port) (e : Event)

@[simp] theorem withDec_dec : (s.withDec d).dec = d := rfl
@[simp] theorem withDec_queue : (s.withDec d).queue = s.queue := rfl
@[simp] theorem withDec_replies : (s.withDec d).replies = s.replies := rfl
@[simp] theorem withDec_sink : (s.withDec d).sink = s.sink := rfl
@[simp] theorem withDec_log : (s.withDec d).log = s.log := rfl
@[simp] theorem withDec_port : (s.withDec d).port = s.port := rfl

@[simp] theorem withQueue_dec : (s.withQueue q).dec = s.dec := rfl
@[simp] theorem withQueue_queue : (s.withQueue q).queue = q := rfl
@[simp] theorem withQueue_replies : (s.withQueue q).replies = s.replies := rfl
@[simp] theorem withQueue_sink : (s.withQueue q).sink = s.sink := rfl
@[simp] theorem withQueue_log : (s.withQueue q).log = s.log := rfl
@[simp] theorem withQueue_port : (s.withQueue q).port = s.port := rfl

@[simp] theorem withReplies_dec : (s.withReplies r).dec = s.dec := rfl
@[simp] theorem withReplies_queue : (s.withReplies r).queue = s.queue := rfl
@[simp] theorem withReplies_replies : (s.withReplies r).replies = r := rfl
@[simp] theorem withReplies_sink : (s.withReplies r).sink = s.sink := rfl
@[simp] theorem withReplies_log : (s.withReplies r).log = s.log := rfl
@[simp] theorem withReplies_port : (s.withReplies r).port = s.port := rfl

@[simp] theorem withPort_dec : (s.withPort p).dec = s.dec := rfl
@[simp] theorem withPort_queue : (s.withPort p).queue = s.queue := rfl
@[simp] theorem withPort_replies : (s.withPort p).replies = s.replies := rfl
@[simp] theorem withPort_sink : (s.withPort p).sink = s.sink := rfl
@[simp] theorem withPort_log : (s.withPort p).log = s.log := rfl
@[simp] theorem withPort_port : (s.withPort p).port = p := rfl

@[simp] theorem emit_dec : (s.emit e).dec = s.dec := rfl
@[simp] theorem emit_queue : (s.emit e).queue = s.queue := rfl
@[simp] theorem emit_replies : (s.emit e).replies = s.replies := rfl
@[simp] theorem emit_sink : (s.emit e).sink = s.sink ++ e.sinkBytes := rfl
@[simp] theorem emit_log : (s.emit e).log = s.log ++ [e] := rfl
@[simp] theorem emit_port : (s.emit e).port = s.port := rfl

@[simp] theorem withQueue_withDec : (s.withQueue q).withDec d = (s.withDec d).withQueue q := rfl
@[simp] theorem withDec_self : s.withDec s.dec = s := rfl
@[simp] theorem withDec_withDec (d' : Decoder) : (s.withDec d).withDec d' = s.withDec d' := rfl

end Updates

/-! ### The decoder's registers -/

section Registers

variable (d : Decoder) (p : Phase)

@[simp] theorem goto_state : (d.goto p).state = p := rfl
@[simp] theorem goto_startMarker : (d.goto p).startMarker = d.startMarker := rfl
@[simp] theorem goto_commandId : (d.goto p).commandId = d.commandId := rfl
@[simp] theorem goto_payloadLength : (d.goto p).payloadLength = d.payloadLength := rfl
@[simp] theorem goto_index : (d.goto p).index = d.index := rfl
@[simp] theorem goto_payload : (d.goto p).payload = d.payload := rfl
@[simp] theorem clearPacket_state : d.clearPacket.state = d.state := rfl
@[simp] theorem clearPacket_startMarker : d.clearPacket.startMarker = 0#8 := rfl
@[simp] theorem clearPacket_commandId : d.clearPacket.commandId = 0#8 := rfl
@[simp] theorem clearPacket_payloadLength : d.clearPacket.payloadLength = 0#8 := rfl
@[simp] theorem clearPacket_index : d.clearPacket.index = 0#4 := rfl
@[simp] theorem clearPacket_payload : d.clearPacket.payload = [] := rfl
@[simp] theorem abandon_eq_reset : d.abandon = Decoder.reset := rfl

@[simp] theorem reset_state : Decoder.reset.state = .waitStart := rfl
@[simp] theorem reset_startMarker : Decoder.reset.startMarker = 0#8 := rfl
@[simp] theorem reset_commandId : Decoder.reset.commandId = 0#8 := rfl
@[simp] theorem reset_payloadLength : Decoder.reset.payloadLength = 0#8 := rfl
@[simp] theorem reset_index : Decoder.reset.index = 0#4 := rfl
@[simp] theorem reset_payload : Decoder.reset.payload = [] := rfl

end Registers

/-! ### Events and the parameters -/

@[simp] theorem sinkBytes_resp (b : Byte) : (Event.resp b).sinkBytes = [b] := rfl
@[simp] theorem sinkBytes_dispatch (c n : Byte) (p : List Byte) : (Event.dispatch c n p).sinkBytes = [] := rfl
@[simp] theorem sinkBytes_tx (f : List Byte) : (Event.tx f).sinkBytes = f := rfl

@[simp] theorem sinkOf_nil : sinkOf [] = [] := rfl
@[simp] theorem sinkOf_append (a b : List Event) : sinkOf (a ++ b) = sinkOf a ++ sinkOf b := by
  simp [sinkOf]
@[simp] theorem sinkOf_cons (e : Event) (b : List Event) : sinkOf (e :: b) = e.sinkBytes ++ sinkOf b := by
  simp [sinkOf]

@[simp] theorem startMarker_eq : Config.startMarker = 0xAA#8 := rfl
theorem maxPayload_eq : Config.maxPayload = 10 := rfl
@[simp] theorem ack_eq : Config.ack = 0x06#8 := rfl
@[simp] theorem nack_eq : Config.nack = 0x15#8 := rfl

@[simp] theorem raise_eq (r : Rejection) (s : State) :
    raise r s = (s.withDec Decoder.reset).emit (.resp Config.nack) := by
  cases r <;> rfl

@[simp] theorem defensiveReset_eq (s : State) : defensiveReset s = .next (s.withDec Decoder.reset) := rfl

/-! ### Sequencing -/

@[simp] theorem andThen_next (s : State) (f : State → Result) : andThen (.next s) f = f s := rfl
@[simp] theorem andThen_fault (x : Fault) (f : State → Result) : andThen (.fault x) f = .fault x := rfl
@[simp] theorem andThen_refused (x : Refusal) (f : State → Result) : andThen (.refused x) f = .refused x := rfl

/-- A sequence that ends in a next state passed through one. -/
theorem andThen_eq_next {r : Result} {f : State → Result} {t : State} (h : andThen r f = .next t) :
    ∃ s, r = .next s ∧ f s = .next t := by
  cases r with
  | next s => exact ⟨s, rfl, h⟩
  | fault x => cases h
  | refused x => cases h

theorem andThen_assoc (r : Result) (f g : State → Result) :
    andThen (andThen r f) g = andThen r fun s => andThen (f s) g := by
  cases r <;> rfl

/-- What a STEP row answers: its effect where it is selected, the named refusal elsewhere. -/
theorem whenSelected_cases (i : Instr) (s : State) (effect : State → Result) :
    (rowSelected i s.dec = true ∧ whenSelected i s effect = effect s) ∨
      (rowSelected i s.dec = false ∧ whenSelected i s effect = .refused .rowNotSelected) := by
  unfold whenSelected
  cases h : rowSelected i s.dec <;> simp

@[simp] theorem whenSelected_of_selected {i : Instr} {s : State} {effect : State → Result}
    (h : rowSelected i s.dec = true) : whenSelected i s effect = effect s := by
  simp [whenSelected, h]

end Sys2Proof.Machine
end

