-- ==== Sys2Proof/Laws/Decode.lean ====
section
/-!
SUPPORT. The fields of a STEP key, and the state register's encoding.
-/

namespace Sys2Proof

open Machine

@[simp] theorem keyByte_append (st : StateCode) (b : Byte) : keyByte (st ++ b) = b := by
  apply BitVec.eq_of_toNat_eq
  have hb := b.isLt
  rw [keyByte, BitVec.extractLsb'_toNat, BitVec.toNat_append st b,
    ← Nat.shiftLeft_add_eq_or_of_lt hb, Nat.shiftLeft_eq, Nat.shiftRight_eq_div_pow]
  omega

@[simp] theorem keyState_append (st : StateCode) (b : Byte) : keyState (st ++ b) = st := by
  apply BitVec.eq_of_toNat_eq
  have hb := b.isLt
  have hs := st.isLt
  rw [keyState, BitVec.extractLsb'_toNat, BitVec.toNat_append st b,
    ← Nat.shiftLeft_add_eq_or_of_lt hb, Nat.shiftLeft_eq, Nat.shiftRight_eq_div_pow]
  omega

/-- A key is its two fields. -/
theorem keyState_append_keyByte (k : BitVec 11) : keyState k ++ keyByte k = k := by
  apply BitVec.eq_of_toNat_eq
  have hb := (keyByte k).isLt
  have hk := k.isLt
  rw [BitVec.toNat_append (keyState k) (keyByte k), ← Nat.shiftLeft_add_eq_or_of_lt hb]
  unfold keyState keyByte
  simp only [BitVec.extractLsb'_toNat, Nat.shiftLeft_eq, Nat.shiftRight_eq_div_pow]
  omega

@[simp] theorem ofCode_code (p : Phase) : Phase.ofCode p.code = p := by
  cases p <;> rfl

@[simp] theorem code_ofCode (c : StateCode) : (Phase.ofCode c).code = c := by
  revert c
  decide

theorem code_eq_iff (p : Phase) (c : StateCode) : p.code = c ↔ p = Phase.ofCode c :=
  ⟨fun h => by rw [← h, ofCode_code], fun h => by rw [h, code_ofCode]⟩

/-- A key whose state is the decoder's own decodes as the byte does in these registers. -/
@[simp] theorem decodeKey_code (d : Decoder) (b : Byte) : decodeKey d (d.state.code ++ b) = decodeStep d b := by
  simp [decodeKey]

@[simp] theorem decode_byte (d : Decoder) (b : Byte) : decode d (.byte b) = .ok (decodeStep d b) := by
  simp [decode, deliveryCode, decodeCode]

@[simp] theorem decode_bytes (d : Decoder) (bs : List Byte) : decode d (.bytes bs) = .ok (decodeBytes bs) := rfl

@[simp] theorem decode_request (d : Decoder) (r : EncodeRequest) :
    decode d (.request r) = .ok (.encode r.cmd r.len r.data) := rfl

@[simp] theorem decode_reset (d : Decoder) : decode d .reset = .ok .reset := rfl

end Sys2Proof
end

