-- ==== Sys2Proof/Laws/Memory.lean ====
section
/-!
SUPPORT. The payload buffer: reading after writing, and the canonical form.
-/

namespace Sys2Proof.Machine

@[simp] theorem readByte_nil (a : Nat) : Memory.readByte [] a = 0#8 := rfl

/-- Addresses below a canonical list's first one read as unlisted. -/
theorem readByte_below {m : Memory} {lo a : Nat} (h : Memory.wfFrom lo m = true) (ha : a < lo) :
    Memory.readByte m a = 0#8 := by
  induction m generalizing lo with
  | nil => rfl
  | cons c m ih =>
    obtain ⟨k, v⟩ := c
    simp only [Memory.wfFrom, Bool.and_eq_true, decide_eq_true_eq] at h
    have hk : k ≠ a := by omega
    simp only [Memory.readByte, hk, if_false]
    exact ih h.2 (by omega)

theorem wfFrom_mono {m : Memory} {lo lo' : Nat} (h : Memory.wfFrom lo m = true) (hl : lo' ≤ lo) :
    Memory.wfFrom lo' m = true := by
  cases m with
  | nil => rfl
  | cons c m =>
    obtain ⟨k, v⟩ := c
    simp only [Memory.wfFrom, Bool.and_eq_true, decide_eq_true_eq] at h ⊢
    exact ⟨⟨⟨by omega, h.1.1.2⟩, h.1.2⟩, h.2⟩

@[simp] theorem wfFrom_nil (lo : Nat) : Memory.wfFrom lo [] = true := rfl

theorem wfFrom_cons {lo k : Nat} {v : Byte} {m : Memory} :
    Memory.wfFrom lo ((k, v) :: m) = true ↔ lo ≤ k ∧ k < Config.maxPayload ∧ v ≠ 0#8 ∧ Memory.wfFrom (k + 1) m = true := by
  simp [Memory.wfFrom, Memory.unlisted, and_assoc]

/-- Writing keeps the canonical form. -/
theorem wfFrom_writeByte {m : Memory} {lo a : Nat} (v : Byte) (h : Memory.wfFrom lo m = true)
    (hl : lo ≤ a) (ha : a < Config.maxPayload) : Memory.wfFrom lo (Memory.writeByte m a v) = true := by
  induction m generalizing lo with
  | nil =>
    unfold Memory.writeByte Memory.unlisted
    split_ifs with hv
    · rfl
    · exact wfFrom_cons.mpr ⟨hl, ha, hv, rfl⟩
  | cons c m ih =>
    obtain ⟨k, w⟩ := c
    obtain ⟨h1, h2, h3, h4⟩ := wfFrom_cons.mp h
    unfold Memory.writeByte Memory.unlisted
    split_ifs with hak hv hk hv
    · exact h
    · exact wfFrom_cons.mpr ⟨hl, ha, hv, wfFrom_cons.mpr ⟨hak, h2, h3, h4⟩⟩
    · exact wfFrom_mono h4 (by omega)
    · exact wfFrom_cons.mpr ⟨hl, ha, hv, hk ▸ h4⟩
    · exact wfFrom_cons.mpr ⟨h1, h2, h3, ih h4 (by omega)⟩

theorem wf_writeByte {m : Memory} {a : Nat} (v : Byte) (h : Memory.wf m = true) (ha : a < Config.maxPayload) :
    Memory.wf (Memory.writeByte m a v) = true :=
  wfFrom_writeByte v h (Nat.zero_le a) ha

theorem readByte_cons (k : Nat) (v : Byte) (m : Memory) (a : Nat) :
    Memory.readByte ((k, v) :: m) a = if k = a then v else Memory.readByte m a := rfl

/-- Reading after writing, in a canonical buffer. -/
theorem readByte_writeByte_from {m : Memory} {lo : Nat} (a : Nat) (v : Byte) (x : Nat)
    (h : Memory.wfFrom lo m = true) :
    Memory.readByte (Memory.writeByte m a v) x = if x = a then v else Memory.readByte m x := by
  induction m generalizing lo with
  | nil =>
    unfold Memory.writeByte Memory.unlisted
    split_ifs with hv hx hx
    · exact hv.symm
    · rfl
    · rw [readByte_cons, if_pos hx.symm]
    · rw [readByte_cons, if_neg (Ne.symm hx)]
  | cons c m ih =>
    obtain ⟨k, w⟩ := c
    obtain ⟨h1, h2, h3, h4⟩ := wfFrom_cons.mp h
    unfold Memory.writeByte Memory.unlisted
    by_cases hx : x = a
    · subst hx
      rw [if_pos rfl]
      split_ifs with hak hv hk hv
      · rw [hv, readByte_cons, if_neg (by omega)]
        exact readByte_below h4 (by omega)
      · rw [readByte_cons, if_pos rfl]
      · rw [hv]
        exact readByte_below h4 (by omega)
      · rw [readByte_cons, if_pos rfl]
      · rw [readByte_cons, if_neg (by omega), ih h4, if_pos rfl]
    · rw [if_neg hx]
      split_ifs with hak hv hk hv
      · rfl
      · rw [readByte_cons, if_neg (by omega)]
      · rw [readByte_cons, if_neg (by omega)]
      · rw [readByte_cons, readByte_cons, if_neg (by omega), if_neg (by omega)]
      · rw [readByte_cons, readByte_cons, ih h4, if_neg hx]

theorem readByte_writeByte {m : Memory} (a : Nat) (v : Byte) (x : Nat) (h : Memory.wf m = true) :
    Memory.readByte (Memory.writeByte m a v) x = if x = a then v else Memory.readByte m x :=
  readByte_writeByte_from a v x h

theorem memWrite_eq_some {m m' : Memory} {a : Nat} {v : Byte} :
    Memory.memWrite m a v = some m' ↔ a < Config.maxPayload ∧ m' = Memory.writeByte m a v := by
  unfold Memory.memWrite
  split_ifs with h
  · simp only [Option.some.injEq, h, true_and]; exact eq_comm
  · simp [h]

/-- Storing keeps the canonical form. -/
theorem wf_memWrite {m m' : Memory} {a : Nat} {v : Byte} (h : Memory.wf m = true)
    (hw : Memory.memWrite m a v = some m') : Memory.wf m' = true := by
  obtain ⟨ha, rfl⟩ := memWrite_eq_some.mp hw
  exact wf_writeByte v h ha

/-- A canonical buffer that reads as zero everywhere lists nothing. -/
theorem eq_nil_of_zeroFrom {m : Memory} (h : Memory.wf m = true) (hz : Memory.zeroFrom m 0) : m = [] := by
  cases m with
  | nil => rfl
  | cons c m =>
    obtain ⟨k, v⟩ := c
    have hv := hz k (Nat.zero_le k)
    simp only [Memory.readByte, if_true] at hv
    simp [Memory.wf, Memory.wfFrom, Memory.unlisted, hv] at h

@[simp] theorem length_bytesBelow (m : Memory) (n : Nat) : (Memory.bytesBelow m n).length = n := by
  simp [Memory.bytesBelow]

theorem bytesBelow_succ (m : Memory) (n : Nat) :
    Memory.bytesBelow m (n + 1) = Memory.bytesBelow m n ++ [Memory.readByte m n] := by
  simp [Memory.bytesBelow, List.range_succ]

/-- A store at `a` leaves what lies below `a` as it was. -/
theorem bytesBelow_writeByte {m : Memory} {a n : Nat} (v : Byte) (h : Memory.wf m = true) (hn : n ≤ a) :
    Memory.bytesBelow (Memory.writeByte m a v) n = Memory.bytesBelow m n := by
  unfold Memory.bytesBelow
  apply List.map_congr_left
  intro x hx
  have : x < n := List.mem_range.mp hx
  rw [readByte_writeByte a v x h, if_neg (by omega)]

end Sys2Proof.Machine
end

