-- ==== Sys2Proof/Laws/Ops.lean ====
section
/-!
SUPPORT. What each shared operation can do, said once: encode requests, the dispatch, the events of a step,
a stored payload byte, a delivered byte.
-/

namespace Sys2Proof.Machine

/-! ### Encode requests -/

theorem isOverLength_iff (b : Byte) : isOverLength b = true ↔ 10 < b.toNat := by
  rw [isOverLength, decide_eq_true_eq, maxPayload_eq]

theorem isOverLength_eq_false (b : Byte) : isOverLength b = false ↔ b.toNat ≤ 10 := by
  rw [isOverLength, decide_eq_false_iff_not, maxPayload_eq, Nat.not_lt]

theorem ok_iff (r : EncodeRequest) : r.ok = true ↔ r.len.toNat ≤ 10 ∧ r.len.toNat ≤ r.data.length := by
  simp [EncodeRequest.ok, isOverLength_eq_false]

theorem runEncode_of_ok {r : EncodeRequest} (h : r.ok = true) (s : State) :
    runEncode r s = .next (s.emit (.tx r.frame)) := by
  obtain ⟨h1, h2⟩ := (ok_iff r).mp h
  unfold runEncode
  rw [if_neg (by simp [isOverLength_eq_false, h1]), if_neg (by omega)]

theorem runEncode_of_not_ok {r : EncodeRequest} (h : r.ok = false) (s : State) :
    runEncode r s = .refused .encodeLengthOverMax ∨ runEncode r s = .refused .encodeDataShort := by
  unfold runEncode
  split_ifs with h1 h2
  · exact .inl rfl
  · exact .inr rfl
  · simp [EncodeRequest.ok, h1] at h
    omega

/-- The state after some requests inside the encoder's domain. -/
def afterFrames (rs : List EncodeRequest) (s : State) : State :=
  { s with log := s.log ++ framesEvents rs, sink := s.sink ++ framesBytes rs }

@[simp] theorem afterFrames_nil (s : State) : afterFrames [] s = s := by
  simp [afterFrames, framesEvents, framesBytes]

theorem afterFrames_cons (r : EncodeRequest) (rs : List EncodeRequest) (s : State) :
    afterFrames (r :: rs) s = afterFrames rs (s.emit (.tx r.frame)) := by
  simp [afterFrames, framesEvents, framesBytes, State.emit]

theorem sinkOf_framesEvents (rs : List EncodeRequest) : sinkOf (framesEvents rs) = framesBytes rs := by
  induction rs with
  | nil => rfl
  | cons r rs ih => simpa [framesEvents, framesBytes] using ih

theorem responseCount_append (a b : List Event) : responseCount (a ++ b) = responseCount a + responseCount b := by
  simp [responseCount]

theorem responseCount_framesEvents (rs : List EncodeRequest) : responseCount (framesEvents rs) = 0 := by
  induction rs with
  | nil => rfl
  | cons r rs ih => exact ih

theorem runEncodes_of_ok {rs : List EncodeRequest} (h : ∀ r ∈ rs, r.ok = true) (s : State) :
    runEncodes rs s = .next (afterFrames rs s) := by
  induction rs generalizing s with
  | nil => simp [runEncodes]
  | cons r rs ih =>
    rw [runEncodes, runEncode_of_ok (h r (by simp)), andThen_next, ih fun x hx => h x (by simp [hx]),
      afterFrames_cons]

/-- Everything some requests can do: all inside the domain and their frames emitted, or a named refusal. -/
theorem runEncodes_cases (rs : List EncodeRequest) (s : State) :
    ((∀ r ∈ rs, r.ok = true) ∧ runEncodes rs s = .next (afterFrames rs s)) ∨
      ((∃ r ∈ rs, r.ok = false) ∧
        (runEncodes rs s = .refused .encodeLengthOverMax ∨ runEncodes rs s = .refused .encodeDataShort)) := by
  induction rs generalizing s with
  | nil => exact .inl ⟨by simp, by simp [runEncodes]⟩
  | cons r rs ih =>
    cases hr : r.ok with
    | true =>
      rw [runEncodes, runEncode_of_ok hr, andThen_next, afterFrames_cons]
      rcases ih (s.emit (.tx r.frame)) with ⟨h1, h2⟩ | ⟨⟨x, hx, hxo⟩, h2⟩
      · exact .inl ⟨by simpa [hr] using h1, h2⟩
      · exact .inr ⟨⟨x, by simp [hx], hxo⟩, h2⟩
    | false =>
      refine .inr ⟨⟨r, by simp, hr⟩, ?_⟩
      rcases runEncode_of_not_ok hr s with h | h <;> simp [runEncodes, h]

/-! ### The dispatch -/

/-- The state after a dispatch whose Dispatcher keeps the encoder's precondition. -/
def afterDispatch (c n : Byte) (p : List Byte) (s : State) : State :=
  afterFrames (s.replies.headD []) ((s.emit (.dispatch c n p)).withReplies s.replies.tail)

/-- Everything a dispatch can do. -/
theorem dispatch_cases (c n : Byte) (p : List Byte) (s : State) :
    (s.nextRepliesOk ∧ dispatch c n p s = .next (afterDispatch c n p s)) ∨
      ((∃ r ∈ s.replies.headD [], r.ok = false) ∧
        (dispatch c n p s = .refused .encodeLengthOverMax ∨ dispatch c n p s = .refused .encodeDataShort)) :=
  runEncodes_cases _ _

theorem dispatch_of_ok (c n : Byte) (p : List Byte) {s : State} (h : s.nextRepliesOk) :
    dispatch c n p s = .next (afterDispatch c n p s) :=
  runEncodes_of_ok h _

@[simp] theorem afterDispatch_dec (c n : Byte) (p : List Byte) (s : State) :
    (afterDispatch c n p s).dec = s.dec := rfl
@[simp] theorem afterDispatch_queue (c n : Byte) (p : List Byte) (s : State) :
    (afterDispatch c n p s).queue = s.queue := rfl
@[simp] theorem afterDispatch_port (c n : Byte) (p : List Byte) (s : State) :
    (afterDispatch c n p s).port = s.port := rfl
@[simp] theorem afterDispatch_replies (c n : Byte) (p : List Byte) (s : State) :
    (afterDispatch c n p s).replies = s.replies.tail := rfl
@[simp] theorem afterDispatch_log (c n : Byte) (p : List Byte) (s : State) :
    (afterDispatch c n p s).log = s.log ++ .dispatch c n p :: framesEvents (s.replies.headD []) := by
  simp [afterDispatch, afterFrames]
@[simp] theorem afterDispatch_sink (c n : Byte) (p : List Byte) (s : State) :
    (afterDispatch c n p s).sink = s.sink ++ framesBytes (s.replies.headD []) := by
  simp [afterDispatch, afterFrames]

theorem afterDispatch_withDec (c n : Byte) (p : List Byte) (s : State) (d : Decoder) :
    afterDispatch c n p (s.withDec d) = (afterDispatch c n p s).withDec d := rfl

theorem dispatch_withDec (c n : Byte) (p : List Byte) (s : State) (d : Decoder) :
    dispatch c n p (s.withDec d) = andThen (dispatch c n p s) fun t => .next (t.withDec d) := by
  rcases dispatch_cases c n p s with ⟨h, e⟩ | ⟨⟨r, hr, hro⟩, e⟩
  · rw [e, dispatch_of_ok (s := s.withDec d) c n p h]
    rfl
  · unfold dispatch at *
    have key : ∀ (rs : List EncodeRequest) (s : State),
        runEncodes rs (s.withDec d) = andThen (runEncodes rs s) fun t => .next (t.withDec d) := by
      intro rs
      induction rs with
      | nil => intro s; rfl
      | cons r rs ih =>
        intro s
        cases ho : r.ok with
        | true =>
          rw [runEncodes, runEncodes, runEncode_of_ok ho, runEncode_of_ok ho, andThen_next, andThen_next,
            ← ih]
          rfl
        | false =>
          have : runEncode r (s.withDec d) = runEncode r s ∨ ∃ x, runEncode r s = .next x := by
            unfold runEncode
            split_ifs <;> simp
          rcases runEncode_of_not_ok ho s with h | h <;>
            simp_all [runEncodes]
    exact key _ ((s.emit (.dispatch c n p)).withReplies s.replies.tail)

/-! ### The events of a step -/

@[simp] theorem perform_nil (s : State) : perform [] s = .next s := rfl
@[simp] theorem perform_resp (b : Byte) (s : State) : perform [.resp b] s = .next (s.emit (.resp b)) := rfl
theorem perform_dispatch (c n : Byte) (p : List Byte) (b : Byte) (s : State) :
    perform [.dispatch c n p, .resp b] s =
      andThen (dispatch c n p s) fun t => .next (t.emit (.resp b)) := rfl

end Sys2Proof.Machine
end

