-- ==== Sys2Proof/Laws/Decoder.lean ====
section
/-!
SUPPORT. The decoder step state by state, and the malformed registers.
-/

namespace Sys2Proof.Machine

variable {d : Decoder} (b : Byte)

/-! ### Malformed registers -/

theorem malformed_readPayload (h : d.state = .readPayload) :
    d.malformed = true ↔ 10 < d.payloadLength.toNat ∨ d.payloadLength.toNat ≤ d.index.toNat := by
  simp [Decoder.malformed, Decoder.malformedRegisters, h, isOverLength_iff]

theorem malformed_readChecksum (h : d.state = .readChecksum) :
    d.malformed = true ↔ 10 < d.payloadLength.toNat := by
  simp [Decoder.malformed, Decoder.malformedRegisters, h, isOverLength_iff]

/-- Where the register clauses of `Malformed` are asked, they are all of it. -/
theorem malformed_eq_registers (h : d.state = .readPayload ∨ d.state = .readChecksum) :
    d.malformed = d.malformedRegisters := by
  rcases h with h | h <;> simp [Decoder.malformed, h]

theorem not_malformed_readPayload (h : d.state = .readPayload) (hl : d.payloadLength.toNat ≤ 10)
    (hi : d.index.toNat < d.payloadLength.toNat) : d.malformed = false := by
  rw [Bool.eq_false_iff, Ne, malformed_readPayload h]
  omega

theorem not_malformed_readChecksum (h : d.state = .readChecksum) (hl : d.payloadLength.toNat ≤ 10) :
    d.malformed = false := by
  rw [Bool.eq_false_iff, Ne, malformed_readChecksum h]
  omega

/-- The index does not wrap below 15. -/
theorem toNat_index_succ (x : Nibble) (h : x.toNat < 15) : (x + 1#4).toNat = x.toNat + 1 := by
  rw [BitVec.toNat_add]
  simp
  omega

/-! ### The step, state by state -/

theorem decStep_malformed (h : d.malformed = true) : decStep d b = (Decoder.reset, []) := by
  simp [decStep, h]

theorem decStep_waitStart (h : d.state = .waitStart) :
    decStep d b =
      if b = 0xAA#8 then ({ d with startMarker := b, state := .readCommand }, []) else (d, []) := by
  simp only [decStep, Decoder.malformed, Decoder.malformedRegisters, h, Bool.false_eq_true, if_false]
  rfl

theorem decStep_readCommand (h : d.state = .readCommand) :
    decStep d b = ({ d with commandId := b, state := .readLength }, []) := by
  simp [decStep, Decoder.malformed, Decoder.malformedRegisters, h]

theorem decStep_readLength (h : d.state = .readLength) :
    decStep d b =
      if 10 < b.toNat then (Decoder.reset, [.resp 0x15#8])
      else if b = 0#8 then ({ d with payloadLength := 0#8, state := .readChecksum }, [])
      else ({ d with payloadLength := b, index := 0#4, state := .readPayload }, []) := by
  simp only [decStep, Decoder.malformed, Decoder.malformedRegisters, h, Bool.false_eq_true, if_false]
  rfl

theorem decStep_readPayload (h : d.state = .readPayload) (hl : d.payloadLength.toNat ≤ 10)
    (hi : d.index.toNat < d.payloadLength.toNat) :
    decStep d b =
      ({ d with
          payload := Memory.writeByte d.payload d.index.toNat b
          index := d.index + 1#4
          state := if d.index.toNat + 1 = d.payloadLength.toNat then .readChecksum else .readPayload }, []) := by
  have hx := toNat_index_succ d.index (by omega)
  simp only [decStep, not_malformed_readPayload h hl hi, h, Bool.false_eq_true, if_false, hx]
  split_ifs <;> simp

theorem decStep_readChecksum (h : d.state = .readChecksum) (hl : d.payloadLength.toNat ≤ 10) :
    decStep d b =
      if b = d.checksum then
        (Decoder.reset, [.dispatch d.commandId d.payloadLength d.payloadInUse, .resp 0x06#8])
      else (Decoder.reset, [.resp 0x15#8]) := by
  simp [decStep, not_malformed_readChecksum h hl, h]

/-- The payload buffer keeps its canonical form, from any registers. -/
theorem wf_decStep (h : Memory.wf d.payload = true) : Memory.wf (decStep d b).1.payload = true := by
  cases hm : d.malformed
  · cases hs : d.state
    · rw [decStep_waitStart b hs]
      split_ifs <;> exact h
    · rw [decStep_readCommand b hs]
      exact h
    · rw [decStep_readLength b hs]
      split_ifs <;> first | exact h | rfl
    · have hok := mt (malformed_readPayload hs).mpr (by simp [hm])
      rw [not_or, Nat.not_lt, Nat.not_le] at hok
      rw [decStep_readPayload b hs hok.1 hok.2]
      exact wf_writeByte _ h (by rw [maxPayload_eq]; omega)
    · have hok := mt (malformed_readChecksum hs).mpr (by simp [hm])
      rw [decStep_readChecksum b hs (by omega)]
      split_ifs <;> rfl
    all_goals simp [Decoder.malformed, hs] at hm
  · rw [decStep_malformed b hm]
    rfl

theorem decRun_cons (d : Decoder) (bs : List Byte) :
    decRun d (b :: bs) =
      ((decRun (decStep d b).1 bs).1, (decStep d b).2 ++ (decRun (decStep d b).1 bs).2) := rfl

@[simp] theorem decRun_nil (d : Decoder) : decRun d [] = (d, []) := rfl

/-! ### A delivered byte in the system -/

/-- What delivering a byte leaves alone, and where it takes the registers. -/
theorem deliverByte_next {s t : State} (h : deliverByte b s = .next t) :
    t.dec = (decStep s.dec b).1 ∧ t.queue = s.queue ∧ t.port = s.port := by
  unfold deliverByte at h
  have key : ∀ (es : List Event) (u v : State), perform es u = .next v →
      v.dec = u.dec ∧ v.queue = u.queue ∧ v.port = u.port := by
    intro es
    induction es with
    | nil => intro u v e; cases e; exact ⟨rfl, rfl, rfl⟩
    | cons x es ih =>
      intro u v e
      cases x with
      | resp r => simpa using ih _ _ e
      | tx f => simpa using ih _ _ e
      | dispatch c n p =>
        obtain ⟨w, hw, e⟩ := andThen_eq_next e
        rcases dispatch_cases c n p u with ⟨_, hd⟩ | ⟨_, hd | hd⟩ <;> rw [hd] at hw <;> cases hw
        simpa using ih _ _ e
  simpa using key _ _ _ h

end Sys2Proof.Machine
end

