-- ==== Sys2Proof/Laws/Deliver.lean ====
section
/-!
SUPPORT. The events of a step and the bytes of a stream in the system: what performing them can do, and a
run of bytes as one run of the decoder.
-/

namespace Sys2Proof.Machine

/-- All that performing some events can do. -/
theorem perform_cases (es : List Event) (s : State) :
    (∃ t, perform es s = .next t ∧ t.dec = s.dec ∧ t.queue = s.queue ∧ t.port = s.port) ∨
      perform es s = .refused .encodeLengthOverMax ∨ perform es s = .refused .encodeDataShort := by
  induction es generalizing s with
  | nil => exact .inl ⟨s, rfl, rfl, rfl, rfl⟩
  | cons e es ih =>
    cases e with
    | resp b => exact ih (s.emit (.resp b))
    | tx f => exact ih (s.emit (.tx f))
    | dispatch c n p =>
      unfold perform
      rcases dispatch_cases c n p s with ⟨_, h⟩ | ⟨_, h | h⟩ <;> rw [h]
      · exact ih (afterDispatch c n p s)
      · exact .inr (.inl rfl)
      · exact .inr (.inr rfl)

/-- Events look at no decoder register. -/
theorem perform_withDec (es : List Event) (s : State) (d : Decoder) :
    perform es (s.withDec d) = andThen (perform es s) fun t => .next (t.withDec d) := by
  induction es generalizing s with
  | nil => rfl
  | cons e es ih =>
    cases e with
    | resp b => exact ih (s.emit (.resp b))
    | tx f => exact ih (s.emit (.tx f))
    | dispatch c n p =>
      unfold perform
      rw [dispatch_withDec]
      rcases dispatch_cases c n p s with ⟨_, h⟩ | ⟨_, h | h⟩ <;> rw [h]
      · exact ih _
      · rfl
      · rfl

theorem perform_append (a b : List Event) (s : State) :
    perform (a ++ b) s = andThen (perform a s) (perform b) := by
  induction a generalizing s with
  | nil => rfl
  | cons e a ih =>
    cases e with
    | resp r => exact ih (s.emit (.resp r))
    | tx f => exact ih (s.emit (.tx f))
    | dispatch c n p =>
      show andThen _ _ = andThen (andThen _ _) _
      rcases dispatch_cases c n p s with ⟨_, h⟩ | ⟨_, h | h⟩ <;> rw [h]
      · exact ih _
      · rfl
      · rfl

/-- A run of bytes in the system is the decoder's run, its events performed at the end. -/
theorem deliverBytes_eq_perform (bs : List Byte) (s : State) :
    deliverBytes bs s = perform (decRun s.dec bs).2 (s.withDec (decRun s.dec bs).1) := by
  induction bs generalizing s with
  | nil => rfl
  | cons b bs ih =>
    rw [deliverBytes, decRun_cons, perform_append, perform_withDec]
    unfold deliverByte
    rw [perform_withDec]
    rcases perform_cases (decStep s.dec b).2 s with ⟨t, h, _⟩ | h | h <;> rw [h]
    · rw [andThen_next, andThen_next, andThen_next, ih]
      rfl
    · rfl
    · rfl

/-- With a Dispatcher that keeps the encoder's precondition, events always complete, and it keeps it on. -/
theorem perform_of_ok (es : List Event) {s : State} (h : s.allRepliesOk) :
    ∃ t, perform es s = .next t ∧ t.allRepliesOk := by
  induction es generalizing s with
  | nil => exact ⟨s, rfl, h⟩
  | cons e es ih =>
    cases e with
    | resp b => exact ih (s := s.emit (.resp b)) h
    | tx f => exact ih (s := s.emit (.tx f)) h
    | dispatch c n p =>
      have hn : s.nextRepliesOk := by
        intro r hr
        cases hs : s.replies with
        | nil => simp [hs] at hr
        | cons a l => exact h a (by simp [hs]) r (by simpa [hs] using hr)
      unfold perform
      rw [dispatch_of_ok c n p hn]
      exact ih fun rs hrs => h rs (List.mem_of_mem_tail hrs)

end Sys2Proof.Machine
end

