-- ==== Sys2Proof/Laws/PerInstr.lean ====
section
/-!
SUPPORT. Made per instruction: the bytes of every instruction's code match the pattern of its row of
spec/opcode_table.json, as the table prints `match` and `mask`.
-/

namespace Sys2Proof.Laws.TableRows

open Sys2Proof Sys2Proof.Machine

/-- The code of a well-formed instruction fits its row of the opcode table, where the row has a pattern. -/
def Statement (i : Instr) : Prop :=
  i.wf = true → ∀ r, tableRow i = some r → r.fits (encode i).tableBytes

/-- The pattern of a STEP row, field by field. -/
theorem fits_key (st : StateCode) (b : Byte) (v m : Nat)
    (hs : st.setWidth 8 &&& BitVec.ofNat 8 (m >>> 8) = BitVec.ofNat 8 (v >>> 8))
    (hb : b &&& BitVec.ofNat 8 m = BitVec.ofNat 8 v) :
    (TableRow.mk 2 v m).fits (Code.key (st ++ b)).tableBytes := by
  simp only [TableRow.fits, Code.tableBytes, keyState_append, keyByte_append, bytesBE, List.zipWith_cons_cons,
    List.zipWith_nil_left, List.length_cons, List.length_nil, and_true, List.cons.injEq]
  exact ⟨by simpa using hs, by simpa using hb⟩

theorem wsStart : Statement (.wsStart) := by
  intro _ r h
  cases h
  exact fits_key 0 Config.startMarker _ _ (by decide) (by decide)

theorem wsSkip (b : Byte) : Statement (.wsSkip b) := by
  intro _ r h
  cases h
  exact fits_key 0 b _ _ (by decide) (by simp)

theorem rcCmd (c : Byte) : Statement (.rcCmd c) := by
  intro _ r h
  cases h
  exact fits_key 1 c _ _ (by decide) (by simp)

theorem rlZero : Statement (.rlZero) := by
  intro _ r h
  cases h
  exact fits_key 2 0 _ _ (by decide) (by decide)

theorem rlLen (l : Byte) : Statement (.rlLen l) := by
  intro hw r h
  cases h
  have key : ∀ l : Byte, (Instr.rlLen l).wf = true → l &&& BitVec.ofNat 8 0x7F0 = BitVec.ofNat 8 0x200 := by
    decide
  exact fits_key 2 l _ _ (by decide) (key l hw)

theorem rlOver (b : Byte) : Statement (.rlOver b) := by
  intro _ r h
  cases h
  exact fits_key 2 b _ _ (by decide) (by simp)

theorem rpMore (p : Byte) : Statement (.rpMore p) := by
  intro _ r h
  cases h
  exact fits_key 3 p _ _ (by decide) (by simp)

theorem rpLast (p : Byte) : Statement (.rpLast p) := by
  intro _ r h
  cases h
  exact fits_key 3 p _ _ (by decide) (by simp)

theorem rkOk (k : Byte) : Statement (.rkOk k) := by
  intro _ r h
  cases h
  exact fits_key 4 k _ _ (by decide) (by simp)

theorem rkBad (k : Byte) : Statement (.rkBad k) := by
  intro _ r h
  cases h
  exact fits_key 4 k _ _ (by decide) (by simp)

theorem xxResetState5 (b : Byte) : Statement (.xxResetState5 b) := by
  intro _ r h
  cases h
  exact fits_key 5 b _ _ (by decide) (by simp)

theorem xxResetState67 (lo : BitVec 1) (b : Byte) : Statement (.xxResetState67 lo b) := by
  intro _ r h
  cases h
  have key : ∀ lo : BitVec 1,
      (3#2 ++ lo).setWidth 8 &&& BitVec.ofNat 8 (0x600 >>> 8) = BitVec.ofNat 8 (0x600 >>> 8) := by
    decide
  exact fits_key (3#2 ++ lo) b _ _ (key lo) (by simp)

theorem xxResetMalformed (st : StateCode) (b : Byte) : Statement (.xxResetMalformed st b) := by
  intro _ r h
  cases h
  exact fits_key st b _ _ (by simp) (by simp)

theorem frameL0 (c k : Byte) : Statement (.frameL0 c k) := by
  intro _ r h
  cases h
  simp [TableRow.fits, encode, Code.tableBytes, bytesBE]

theorem frameL1 (c p0 k : Byte) : Statement (.frameL1 c p0 k) := by
  intro _ r h
  cases h
  simp [TableRow.fits, encode, Code.tableBytes, bytesBE]

theorem frameL2 (c p0 p1 k : Byte) : Statement (.frameL2 c p0 p1 k) := by
  intro _ r h
  cases h
  simp [TableRow.fits, encode, Code.tableBytes, bytesBE]

theorem frameL3 (c p0 p1 p2 k : Byte) : Statement (.frameL3 c p0 p1 p2 k) := by
  intro _ r h
  cases h
  simp [TableRow.fits, encode, Code.tableBytes, bytesBE]

theorem frameL4 (c p0 p1 p2 p3 k : Byte) : Statement (.frameL4 c p0 p1 p2 p3 k) := by
  intro _ r h
  cases h
  simp [TableRow.fits, encode, Code.tableBytes, bytesBE]

theorem frameL5 (c p0 p1 p2 p3 p4 k : Byte) : Statement (.frameL5 c p0 p1 p2 p3 p4 k) := by
  intro _ r h
  cases h
  simp [TableRow.fits, encode, Code.tableBytes, bytesBE]

theorem frameL6 (c p0 p1 p2 p3 p4 p5 k : Byte) : Statement (.frameL6 c p0 p1 p2 p3 p4 p5 k) := by
  intro _ r h
  cases h
  simp [TableRow.fits, encode, Code.tableBytes, bytesBE]

theorem frameL7 (c p0 p1 p2 p3 p4 p5 p6 k : Byte) : Statement (.frameL7 c p0 p1 p2 p3 p4 p5 p6 k) := by
  intro _ r h
  cases h
  simp [TableRow.fits, encode, Code.tableBytes, bytesBE]

theorem frameL8 (c p0 p1 p2 p3 p4 p5 p6 p7 k : Byte) : Statement (.frameL8 c p0 p1 p2 p3 p4 p5 p6 p7 k) := by
  intro _ r h
  cases h
  simp [TableRow.fits, encode, Code.tableBytes, bytesBE]

theorem frameL9 (c p0 p1 p2 p3 p4 p5 p6 p7 p8 k : Byte) : Statement (.frameL9 c p0 p1 p2 p3 p4 p5 p6 p7 p8 k) := by
  intro _ r h
  cases h
  simp [TableRow.fits, encode, Code.tableBytes, bytesBE]

theorem frameL10 (c p0 p1 p2 p3 p4 p5 p6 p7 p8 p9 k : Byte) : Statement (.frameL10 c p0 p1 p2 p3 p4 p5 p6 p7 p8 p9 k) := by
  intro _ r h
  cases h
  simp [TableRow.fits, encode, Code.tableBytes, bytesBE]

theorem ack : Statement .ack := by
  intro _ r h
  cases h
  simp [TableRow.fits, encode, Code.tableBytes, bytesBE]

theorem nack : Statement .nack := by
  intro _ r h
  cases h
  simp [TableRow.fits, encode, Code.tableBytes, bytesBE]

theorem encode (cmd len : Byte) (data : List Byte) : Statement (.encode cmd len data) := fun _ _ h => nomatch h

theorem reset : Statement (.reset) := fun _ _ h => nomatch h

theorem frame (c : Byte) (p : List Byte) : Statement (.frame c p) := fun _ _ h => nomatch h

theorem badframe (c : Byte) (p : List Byte) (k : Byte) : Statement (.badframe c p k) := fun _ _ h => nomatch h

theorem raw (bs : List Byte) : Statement (.raw bs) := fun _ _ h => nomatch h

end Sys2Proof.Laws.TableRows
end

