-- ==== Sys2Proof/Laws/Ports.lean ====
section
/-!
SUPPORT. Each part of a clock edge, and all it can do; the payload buses.
-/

namespace Sys2Proof.Machine

variable (pins : Pins) (s : State)

/-! ### Payload buses -/

@[simp] theorem length_busBytes (v : BitVec 80) : (busBytes v).length = 10 := by
  simp [busBytes]

theorem getLsbD_busBytes (v : BitVec 80) {i j : Nat} (hi : i < 10) (hj : j < 8) :
    ((busBytes v).getD i 0#8).getLsbD j = v.getLsbD (8 * i + j) := by
  simp [busBytes, List.getD_eq_getElem?_getD, hi, hj]

theorem getLsbD_busOf (p : List Byte) {i j : Nat} (hi : i < 10) (hj : j < 8) :
    (busOf p).getLsbD (8 * i + j) = (p.getD i 0#8).getLsbD j := by
  induction p generalizing i with
  | nil => simp [busOf]
  | cons b bs ih =>
    cases i with
    | zero =>
      simp [busOf, hj]
      omega
    | succ i =>
      rw [busOf, BitVec.getLsbD_or, BitVec.getLsbD_shiftLeft, BitVec.getLsbD_setWidth, List.getD_cons_succ,
        ← ih (i := i) (by omega), show 8 * (i + 1) + j - 8 = 8 * i + j by omega,
        BitVec.getLsbD_of_ge b _ (by omega)]
      simp
      exact fun _ => by omega

theorem ok_request (h : pins.encLen.toNat ≤ 10) : pins.request.ok = true :=
  (ok_iff _).mpr ⟨h, by rw [Pins.request, length_busBytes]; exact h⟩

/-! ### A frame in transmission finished -/

@[simp] theorem finishFrame_dec : s.finishFrame.dec = s.dec := rfl
@[simp] theorem finishFrame_queue : s.finishFrame.queue = s.queue := rfl
@[simp] theorem finishFrame_replies : s.finishFrame.replies = s.replies := rfl
@[simp] theorem finishFrame_sink : s.finishFrame.sink = s.sink ++ s.port.tx := rfl
@[simp] theorem finishFrame_log : s.finishFrame.log = s.log := rfl
@[simp] theorem finishFrame_tx : s.finishFrame.port.tx = [] := rfl
@[simp] theorem finishFrame_out : s.finishFrame.port.out = s.port.out := rfl
@[simp] theorem finishFrame_dispShown : s.finishFrame.port.dispShown = s.port.dispShown := rfl
@[simp] theorem finishFrame_withQueue (q : List Stimulus) :
    (s.withQueue q).finishFrame = s.finishFrame.withQueue q := rfl

theorem finishFrame_of_tx_nil {s : State} (h : s.port.tx = []) : s.finishFrame = s := by
  obtain ⟨_, _, _, _, _, tx, _, _, _⟩ := s
  simp only at h
  simp [State.finishFrame, h]

/-! ### Signals -/

theorem stepPending_eq_false {p : Port} :
    p.stepPending = false ↔ p.out = [] ∧ (p.txOfStep = true → p.tx = []) := by
  cases h : p.txOfStep <;> simp [Port.stepPending, h]

theorem busy_eq_false {p : Port} : p.busy = false ↔ p.out = [] ∧ p.tx = [] := by
  simp [Port.busy]

theorem stepPending_of_not_busy {p : Port} (h : p.busy = false) : p.stepPending = false := by
  obtain ⟨h1, h2⟩ := busy_eq_false.mp h
  exact stepPending_eq_false.mpr ⟨h1, fun _ => h2⟩

theorem rxFires_iff {p : Port} :
    rxFires pins p = true ↔ pins.rxValid = true ∧ pins.rst = false ∧ p.stepPending = false := by
  simp [rxFires, rxReady]

theorem txSignal_eq_some {p : Port} {b : Byte} {last : Bool} :
    txSignal pins p = some (b, last) ↔ ∃ rest, p.tx = b :: rest ∧ pins.txGo = true ∧ last = rest.isEmpty := by
  unfold txSignal
  split
  · rename_i h
    simp [h]
  · rename_i x rest h
    split_ifs with hg <;> simp [h, hg, eq_comm]

theorem dispSignal_ne_none {p : Port} (h : dispSignal pins p ≠ none) :
    ∃ c n bs es, p.out = .dispatch c n bs :: es ∧ dispSignal pins p = some (c, n, busOf bs) := by
  unfold dispSignal at h ⊢
  split at h
  · rename_i c n bs es ho
    split_ifs at h ⊢ with hg
    · exact ⟨c, n, bs, es, ho, rfl⟩
    · exact absurd rfl h
  · exact absurd rfl h

theorem encReady_tx {p : Port} (h : encReady pins p = true) : p.tx = [] := by
  simp only [encReady, Bool.and_eq_true, List.isEmpty_iff] at h
  exact h.1.1.2

theorem encReady_iff {p : Port} :
    encReady pins p = true ↔ p.tx = [] ∧ (p.out = [] ∨ dispSignal pins p ≠ none) ∧ pins.encGo = true ∧
      (pins.rxValid = false ∨ rxReady pins p = false) := by
  simp only [encReady, rxFires, Bool.and_eq_true, Bool.or_eq_true, Bool.not_eq_true', List.isEmpty_iff,
    Option.isSome_iff_ne_none, Bool.and_eq_false_iff]
  tauto

/-! ### The parts of an edge -/

/-- All the transmit port can do in an edge. -/
theorem txEdge_cases :
    ((txSignal pins s.port = none ∨ pins.txReady = false) ∧ txEdge pins s = s) ∨
      ∃ b rest, s.port.tx = b :: rest ∧ txSignal pins s.port = some (b, rest.isEmpty) ∧ pins.txReady = true ∧
        txEdge pins s = { s with sink := s.sink ++ [b], port := { s.port with tx := rest } } := by
  unfold txEdge
  cases h : txSignal pins s.port with
  | none => exact .inl ⟨.inl rfl, rfl⟩
  | some v =>
    obtain ⟨b, last⟩ := v
    obtain ⟨rest, h1, _, rfl⟩ := (txSignal_eq_some pins).mp h
    dsimp only
    split_ifs with hr
    · exact .inr ⟨b, rest, h1, rfl, hr, by rw [h1]; rfl⟩
    · exact .inl ⟨.inr (by simpa using hr), rfl⟩

/-- All the dispatch port can do in an edge. -/
theorem dispEdge_cases :
    (dispSignal pins s.port = none ∧ dispEdge pins s = s) ∨
      ∃ c n bs es, s.port.out = .dispatch c n bs :: es ∧ dispSignal pins s.port = some (c, n, busOf bs) ∧
        ((pins.dispDone = true ∧
            dispEdge pins s = { s with port := { s.port with out := es, dispShown := false } }) ∨
          (pins.dispDone = false ∧ dispEdge pins s = { s with port := { s.port with dispShown := true } })) := by
  unfold dispEdge
  by_cases h : dispSignal pins s.port = none
  · exact .inl ⟨h, by rw [h]⟩
  · obtain ⟨c, n, bs, es, h1, h2⟩ := dispSignal_ne_none pins h
    refine .inr ⟨c, n, bs, es, h1, h2, ?_⟩
    rw [h2]
    dsimp only
    split_ifs with hd
    · exact .inl ⟨hd, by rw [h1]; rfl⟩
    · exact .inr ⟨by simpa using hd, rfl⟩

/-- All the response path can do in an edge. -/
theorem respEdge_cases :
    (∃ b rest, s.port.out = .resp b :: rest ∧ s.port.tx = [] ∧
      respEdge s =
        { s with log := s.log ++ [.resp b], port := { s.port with tx := [b], txOfStep := true, out := rest } }) ∨
    ((∀ b rest, s.port.out = .resp b :: rest → s.port.tx ≠ []) ∧ respEdge s = s) := by
  unfold respEdge
  split
  · rename_i b rest ho ht
    exact .inl ⟨b, rest, ho, ht, rfl⟩
  · rename_i h
    exact .inr ⟨h, rfl⟩

/-- A response taken up by the transmit port is still pending there. -/
@[simp] theorem stepPending_respEdge : (respEdge s).port.stepPending = s.port.stepPending := by
  rcases respEdge_cases s with ⟨b, rest, ho, _, e⟩ | ⟨_, e⟩ <;> rw [e]
  simp [Port.stepPending, ho]

@[simp] theorem encEdge_false : encEdge false pins s = s := rfl

/-- All a clock edge can do. -/
theorem clockEdge_cases :
    (pins.rst = true ∧ s.port.stepPending = true ∧ clockEdge pins s = .refused .resetWhileOutputsPending) ∨
    ((pins.rst = false ∨ s.port.stepPending = false) ∧
      pins.encValid = true ∧ encReady pins s.port = true ∧ 10 < pins.encLen.toNat ∧
        clockEdge pins s = .refused .encodeLengthOverMax) ∨
    ((pins.rst = false ∨ s.port.stepPending = false) ∧
      (pins.encValid = true → encReady pins s.port = true → pins.encLen.toNat ≤ 10) ∧
      clockEdge pins s =
        .next (respEdge (decEdge (rxFires pins s.port) pins
          (encEdge (pins.encValid && encReady pins s.port) pins (dispEdge pins (txEdge pins s)))))) := by
  unfold clockEdge
  dsimp only
  split_ifs with h1 h2
  · rw [Bool.and_eq_true] at h1
    exact .inl ⟨h1.1, h1.2, rfl⟩
  · simp only [Bool.and_eq_true, isOverLength_iff] at h2
    refine .inr (.inl ⟨?_, h2.1.1, h2.1.2, h2.2, rfl⟩)
    simpa [or_iff_not_imp_left] using h1
  · refine .inr (.inr ⟨?_, ?_, rfl⟩)
    · simpa [or_iff_not_imp_left] using h1
    · intro a b
      simpa [a, b, isOverLength_eq_false] using h2

end Sys2Proof.Machine
end

