-- ==== Sys2Proof/Laws/Run.lean ====
section
/-!
SUPPORT. The host's `run` of the machine, one step at a time, in the machine's own types.
-/

namespace Sys2Proof.Machine

/-- `k` steps of the machine. -/
def steps (k : Nat) (s : State) : Result := Host.Core.run core k s

@[simp] theorem steps_zero (s : State) : steps 0 s = .next s := rfl

/-- The host's recursion, for any machine. -/
theorem run_succ (M : Host.Core) (k : Nat) (s : M.State) :
    M.run (k + 1) s =
      match M.step s with
      | .next t => M.run k t
      | .fault x => .fault x
      | .refused x => .refused x := rfl

theorem steps_succ (k : Nat) (s : State) : steps (k + 1) s = andThen (step s) (steps k) := by
  refine (run_succ core k s).trans ?_
  show _ = andThen (core.step s) _
  cases core.step s <;> rfl

end Sys2Proof.Machine
end

