-- ==== Sys2Proof/Tests/Slice0.lean ====
section
/-!
SUPPORT. Tests and witnesses. Expected results come from 95_test_vectors.md (named at each test) and from
the encodings of 30_encoding.md. A `witness_` theorem shows a state and operands that meet the hypotheses
of the obligation it is named after, a value for each clause and at the ends of its range.
-/

namespace Sys2Proof.Tests

open Sys2Proof.Machine

/-! ### Helpers -/

/-- The registers in a named state with the marker stored; the payload given as cells. -/
def regs (p : Phase) (c n : Byte) (i : Nibble) (m : Memory) : Decoder :=
  { state := p, startMarker := 0xAA#8, commandId := c, payloadLength := n, index := i, payload := m }

/-- Reset with other decoder registers. -/
def inDec (d : Decoder) : State := { State.reset with dec := d }

/-- Reset with one stimulus queued. -/
def withStimulus (d : Decoder) (x : Stimulus) : State := { inDec d with queue := [x] }

/-- The outcome is the next state `t`. -/
def answers (r : Result) (t : State) : Bool :=
  match r with
  | .next s => decide (s = t)
  | .fault _ | .refused _ => false

/-- The outcome is a next state with these registers, emitted events and sink. -/
def gives (r : Result) (d : Decoder) (log : List Event) (sink : List Byte) : Bool :=
  match r with
  | .next s => decide (s.dec = d ∧ s.log = log ∧ s.sink = sink)
  | .fault _ | .refused _ => false

/-- The outcome is this refusal. -/
def refuses (r : Result) (x : Refusal) : Bool :=
  match r with
  | .refused y => decide (x = y)
  | .next _ | .fault _ => false

/-- Ten cells 1 to `n` at addresses 0 to `n - 1`. -/
def counting (n : Nat) : Memory := (List.range n).map fun i => (i, BitVec.ofNat 8 (i + 1))

def tenFF : List Byte := List.replicate 10 0xFF#8

/-! ### Well-formedness: one ill-formed term for each check -/

theorem test_wf_skip_marker : (Instr.wsSkip 0xAA#8).wf = false := by decide
theorem test_wf_length_zero : (Instr.rlLen 0#8).wf = false := by decide
theorem test_wf_length_eleven : (Instr.rlLen 11#8).wf = false := by decide
theorem test_wf_over_ten : (Instr.rlOver 10#8).wf = false := by decide
theorem test_wf_malformed_state : (Instr.xxResetMalformed 5#3 0#8).wf = false := by decide
theorem test_wf_frames_wrong_checksum :
    (Instr.frameL0 0#8 0xAB#8).wf = false ∧ (Instr.frameL1 1#8 1#8 0xFF#8).wf = false ∧
    (Instr.frameL2 7#8 0xAA#8 0xAA#8 8#8).wf = false ∧ (Instr.frameL3 0#8 0#8 0#8 0#8 0#8).wf = false ∧
    (Instr.frameL4 0#8 0#8 0#8 0#8 0#8 0#8).wf = false ∧
    (Instr.frameL5 0#8 0#8 0#8 0#8 0#8 0#8 0#8).wf = false ∧
    (Instr.frameL6 0#8 0#8 0#8 0#8 0#8 0#8 0#8 0#8).wf = false ∧
    (Instr.frameL7 0#8 0#8 0#8 0#8 0#8 0#8 0#8 0#8 0#8).wf = false ∧
    (Instr.frameL8 0#8 0#8 0#8 0#8 0#8 0#8 0#8 0#8 0#8 0#8).wf = false ∧
    (Instr.frameL9 0#8 0#8 0#8 0#8 0#8 0#8 0#8 0#8 0#8 0#8 0#8).wf = false ∧
    (Instr.frameL10 0#8 0#8 0#8 0#8 0#8 0#8 0#8 0#8 0#8 0#8 0#8 0#8).wf = false := by decide
theorem test_wf_encode_over : (Instr.encode 1#8 11#8 (0#8 :: tenFF)).wf = false := by decide
theorem test_wf_encode_short : (Instr.encode 1#8 2#8 [1#8]).wf = false := by decide
theorem test_wf_frame_long : (Instr.frame 1#8 (0#8 :: tenFF)).wf = false := by decide
theorem test_wf_badframe_long : (Instr.badframe 1#8 (0#8 :: tenFF) 0#8).wf = false := by decide
theorem test_wf_badframe_right : (Instr.badframe 1#8 [1#8] 0xAD#8).wf = false := by decide
theorem test_wf_accepts :
    (Instr.rlLen 10#8).wf = true ∧ (Instr.rlOver 11#8).wf = true ∧ (Instr.frameL1 1#8 1#8 0xAD#8).wf = true ∧
    (Instr.frame 1#8 tenFF).wf = true ∧ (Instr.badframe 1#8 [1#8] 0xFF#8).wf = true := by decide

/-! ### Decoding: words written out from the encodings of 30_encoding.md R45, R46, R51 -/

theorem test_decode_step_rows :
    decodeTableWord 16 0b000_10101010 = some .wsStart ∧
    decodeTableWord 16 0b000_10101011 = some (.wsSkip 0xAB#8) ∧
    decodeTableWord 16 0b001_10101010 = some (.rcCmd 0xAA#8) ∧
    decodeTableWord 16 0b010_00000000 = some .rlZero ∧
    decodeTableWord 16 0b010_00000001 = some (.rlLen 1#8) ∧
    decodeTableWord 16 0b010_11111111 = some (.rlOver 0xFF#8) ∧
    decodeTableWord 16 0b011_00010000 = some (.rpMore 0x10#8) ∧
    decodeTableWord 16 0b100_10101010 = some (.rkOk 0xAA#8) ∧
    decodeTableWord 16 0b100_10101011 = some (.rkBad 0xAB#8) ∧
    decodeTableWord 16 0b101_00000000 = some (.xxResetState5 0#8) ∧
    decodeTableWord 16 0b110_10101010 = some (.xxResetState67 0#1 0xAA#8) ∧
    decodeTableWord 16 0b111_10101010 = some (.xxResetState67 1#1 0xAA#8) := by decide

/-- Rows that share a key are told apart by the registers (V25, V26, V29d to V29f). -/
theorem test_decode_by_registers :
    decodeKey (regs .readPayload 1#8 1#8 0#4 []) 0b011_00000001#11 = .rpLast 1#8 ∧
    decodeKey (regs .readPayload 0x10#8 10#8 9#4 (counting 9)) 0b011_00001010#11 = .rpLast 10#8 ∧
    decodeKey (regs .readPayload 0#8 11#8 0#4 []) 0b011_00000000#11 = .xxResetMalformed 3#3 0#8 ∧
    decodeKey (regs .readPayload 0#8 3#8 3#4 []) 0b011_00000000#11 = .xxResetMalformed 3#3 0#8 ∧
    decodeKey (regs .readChecksum 0#8 200#8 0#4 []) 0b100_00000000#11 = .xxResetMalformed 4#3 0#8 := by decide

/-- V40, S1, V44, V56, V50 and rows of each further length, first byte leftmost. -/
theorem test_decode_frame_rows :
    decodeTableWord 32 0xAA0000AA = some (.frameL0 0#8 0xAA#8) ∧
    decodeTableWord 40 0xAA010101AD = some (.frameL1 1#8 1#8 0xAD#8) ∧
    decodeTableWord 48 0xAA0702AAAA07 = some (.frameL2 7#8 0xAA#8 0xAA#8 7#8) ∧
    decodeTableWord 56 0xAA02031020300F = some (.frameL3 2#8 0x10#8 0x20#8 0x30#8 0x0F#8) ∧
    decodeTableWord 64 0xAA03040000CC41BE = some (.frameL4 3#8 0#8 0#8 0xCC#8 0x41#8 0xBE#8) ∧
    decodeTableWord 72 0xAA1005010203040500 = some (.frameL5 0x10#8 1#8 2#8 3#8 4#8 5#8 0#8) ∧
    decodeTableWord 80 0xAA100601020304050600 = some (.frameL6 0x10#8 1#8 2#8 3#8 4#8 5#8 6#8 0#8) ∧
    decodeTableWord 88 0xAA10070102030405060700 = some (.frameL7 0x10#8 1#8 2#8 3#8 4#8 5#8 6#8 7#8 0#8) := by
  decide
theorem test_decode_long_frame_rows :
    decodeTableWord 96 0xAA1008010203040506070800 =
      some (.frameL8 0x10#8 1#8 2#8 3#8 4#8 5#8 6#8 7#8 8#8 0#8) ∧
    decodeTableWord 104 0xAA100901020304050607080900 =
      some (.frameL9 0x10#8 1#8 2#8 3#8 4#8 5#8 6#8 7#8 8#8 9#8 0#8) ∧
    decodeTableWord 112 0xAA100A0102030405060708090AFB =
      some (.frameL10 0x10#8 1#8 2#8 3#8 4#8 5#8 6#8 7#8 8#8 9#8 10#8 0xFB#8) := by decide

theorem test_decode_responses :
    decodeTableWord 8 0b00000110 = some .ack ∧ decodeTableWord 8 0b00010101 = some .nack ∧
    decodeTableWord 8 0b00000111 = none := by decide

theorem test_decode_deliveries :
    decode Decoder.reset (.request ⟨3#8, 1#8, [9#8]⟩) = .ok (.encode 3#8 1#8 [9#8]) ∧
    decode Decoder.reset .reset = .ok .reset ∧
    decode Decoder.reset (.bytes [1#8, 2#8]) = .ok (.raw [1#8, 2#8]) ∧
    decode Decoder.reset (.byte 0xAA#8) = .ok .wsStart := ⟨rfl, rfl, rfl, rfl⟩

theorem test_encode_words :
    encode .wsStart = .key 0b000_10101010#11 ∧ encode (.rlOver 0x0B#8) = .key 0b010_00001011#11 ∧
    encode (.frameL1 1#8 1#8 0xAD#8) = .bytes [0xAA#8, 1#8, 1#8, 1#8, 0xAD#8] ∧
    encode (.frame 7#8 [0xAA#8, 0xAA#8]) = .bytes [0xAA#8, 7#8, 2#8, 0xAA#8, 0xAA#8, 7#8] ∧
    encode .nack = .response 0x15#8 := by decide

/-! ### STEP rows, one step each (95_test_vectors.md 2.2) -/

theorem test_V10_start :
    answers (exec .wsStart State.reset) (inDec (regs .readCommand 0#8 0#8 0#4 [])) = true := by decide
theorem test_V12_skip : answers (exec (.wsSkip 0xAB#8) State.reset) State.reset = true := by decide
theorem test_V13_skip_ack : answers (exec (.wsSkip 0x06#8) State.reset) State.reset = true := by decide
theorem test_V14_command_marker :
    gives (exec (.rcCmd 0xAA#8) (inDec (regs .readCommand 0#8 0#8 0#4 [])))
      (regs .readLength 0xAA#8 0#8 0#4 []) [] [] = true := by decide
theorem test_V16_over_smallest :
    gives (exec (.rlOver 0x0B#8) (inDec (regs .readLength 5#8 0#8 0#4 []))) Decoder.reset
      [.resp 0x15#8] [0x15#8] = true := by decide
theorem test_V18_over_marker :
    gives (exec (.rlOver 0xAA#8) (inDec (regs .readLength 5#8 0#8 0#4 []))) Decoder.reset
      [.resp 0x15#8] [0x15#8] = true := by decide
theorem test_V20_zero :
    gives (exec .rlZero (inDec (regs .readLength 2#8 0#8 0#4 []))) (regs .readChecksum 2#8 0#8 0#4 []) [] [] = true := by
  decide
theorem test_V21_length_one :
    gives (exec (.rlLen 1#8) (inDec (regs .readLength 1#8 0#8 0#4 []))) (regs .readPayload 1#8 1#8 0#4 []) [] [] = true := by
  decide
theorem test_V22_length_ten :
    gives (exec (.rlLen 10#8) (inDec (regs .readLength 0x10#8 0#8 0#4 [])))
      (regs .readPayload 0x10#8 10#8 0#4 []) [] [] = true := by decide
theorem test_V23_more :
    gives (exec (.rpMore 0x10#8) (inDec (regs .readPayload 2#8 3#8 0#4 [])))
      (regs .readPayload 2#8 3#8 1#4 [(0, 0x10#8)]) [] [] = true := by decide
theorem test_V24_more_marker :
    gives (exec (.rpMore 0xAA#8) (inDec (regs .readPayload 2#8 3#8 1#4 [(0, 0x10#8)])))
      (regs .readPayload 2#8 3#8 2#4 [(0, 0x10#8), (1, 0xAA#8)]) [] [] = true := by decide
theorem test_V25_last_first :
    gives (exec (.rpLast 1#8) (inDec (regs .readPayload 1#8 1#8 0#4 [])))
      (regs .readChecksum 1#8 1#8 1#4 [(0, 1#8)]) [] [] = true := by decide
theorem test_V26_last_cell :
    gives (exec (.rpLast 10#8) (inDec (regs .readPayload 0x10#8 10#8 9#4 (counting 9))))
      (regs .readChecksum 0x10#8 10#8 10#4 (counting 10)) [] [] = true := by decide
theorem test_V27_match :
    gives (exec (.rkOk 0xAD#8) (inDec (regs .readChecksum 1#8 1#8 1#4 [(0, 1#8)]))) Decoder.reset
      [.dispatch 1#8 1#8 [1#8], .resp 0x06#8] [0x06#8] = true := by decide
/-- P3, step 8: the getter's reply stands before the ACK. -/
theorem test_P3_match_with_reply :
    gives (exec (.rkOk 0xAD#8)
        { inDec (regs .readChecksum 3#8 0#8 0#4 []) with replies := [[⟨0x83#8, 4#8, [0#8, 0#8, 0xCC#8, 0x41#8]⟩]] })
      Decoder.reset
      [.dispatch 3#8 0#8 [], .tx [0xAA#8, 0x83#8, 4#8, 0#8, 0#8, 0xCC#8, 0x41#8, 0x3E#8], .resp 0x06#8]
      [0xAA#8, 0x83#8, 4#8, 0#8, 0#8, 0xCC#8, 0x41#8, 0x3E#8, 0x06#8] = true := by decide
theorem test_V29a_mismatch :
    gives (exec (.rkBad 0xAE#8) (inDec (regs .readChecksum 1#8 1#8 1#4 [(0, 1#8)]))) Decoder.reset
      [.resp 0x15#8] [0x15#8] = true := by decide
theorem test_V29b_mismatch_marker :
    gives (exec (.rkBad 0xAA#8) (inDec (regs .readChecksum 1#8 1#8 1#4 [(0, 1#8)]))) Decoder.reset
      [.resp 0x15#8] [0x15#8] = true := by decide
theorem test_defensive_state_five :
    gives (exec (.xxResetState5 1#8) (inDec (regs .code5 0x12#8 3#8 2#4 [(0, 1#8)]))) Decoder.reset [] [] = true := by
  decide
theorem test_V29c_defensive_state_six :
    gives (exec (.xxResetState67 0#1 0xAA#8) (inDec (regs .code6 0x12#8 3#8 2#4 [(0, 1#8)]))) Decoder.reset [] [] = true := by
  decide
theorem test_V29d_defensive_length :
    gives (exec (.xxResetMalformed 3#3 0#8) (inDec (regs .readPayload 0#8 11#8 0#4 []))) Decoder.reset [] [] = true := by
  decide
theorem test_V29f_defensive_checksum :
    gives (exec (.xxResetMalformed 4#3 0#8) (inDec (regs .readChecksum 0#8 200#8 0#4 []))) Decoder.reset [] [] = true := by
  decide
theorem test_row_not_selected : refuses (exec (.rcCmd 1#8) State.reset) .rowNotSelected = true := by decide

/-! ### FRAME rows, pseudo-instructions, responses, requests, reset -/

theorem test_V40_frame_L0 :
    gives (exec (.frameL0 0#8 0xAA#8) State.reset) Decoder.reset [.dispatch 0#8 0#8 [], .resp 0x06#8] [0x06#8] = true := by
  decide
theorem test_S1_frame_L1 :
    gives (exec (.frameL1 1#8 1#8 0xAD#8) State.reset) Decoder.reset
      [.dispatch 1#8 1#8 [1#8], .resp 0x06#8] [0x06#8] = true := by decide
theorem test_S2_frame_L1_wrong :
    gives (exec (.frameL1 1#8 1#8 0xFF#8) State.reset) Decoder.reset [.resp 0x15#8] [0x15#8] = true := by decide
theorem test_V44_frame_L2 :
    gives (exec (.frameL2 7#8 0xAA#8 0xAA#8 7#8) State.reset) Decoder.reset
      [.dispatch 7#8 2#8 [0xAA#8, 0xAA#8], .resp 0x06#8] [0x06#8] = true := by decide
theorem test_P5_frame_L3 :
    gives (exec (.frameL3 2#8 0x10#8 0x20#8 0x30#8 0x0F#8) State.reset) Decoder.reset
      [.dispatch 2#8 3#8 [0x10#8, 0x20#8, 0x30#8], .resp 0x06#8] [0x06#8] = true := by decide
theorem test_S4_frame_L4 :
    gives (exec (.frameL4 3#8 0#8 0#8 0xCC#8 0x41#8 0xBE#8) State.reset) Decoder.reset
      [.dispatch 3#8 4#8 [0#8, 0#8, 0xCC#8, 0x41#8], .resp 0x06#8] [0x06#8] = true := by decide
/-- 41_checksum.md R85 by hand: 0xAA + 0x10 + n + (1 + ... + n), its low byte. -/
theorem test_frames_L5_to_L7 :
    gives (exec (.frameL5 0x10#8 1#8 2#8 3#8 4#8 5#8 0xCE#8) State.reset) Decoder.reset
      [.dispatch 0x10#8 5#8 [1#8, 2#8, 3#8, 4#8, 5#8], .resp 0x06#8] [0x06#8] = true ∧
    gives (exec (.frameL6 0x10#8 1#8 2#8 3#8 4#8 5#8 6#8 0xD5#8) State.reset) Decoder.reset
      [.dispatch 0x10#8 6#8 [1#8, 2#8, 3#8, 4#8, 5#8, 6#8], .resp 0x06#8] [0x06#8] = true ∧
    gives (exec (.frameL7 0x10#8 1#8 2#8 3#8 4#8 5#8 6#8 7#8 0xDD#8) State.reset) Decoder.reset
      [.dispatch 0x10#8 7#8 [1#8, 2#8, 3#8, 4#8, 5#8, 6#8, 7#8], .resp 0x06#8] [0x06#8] = true := by decide
theorem test_frames_L8_L9 :
    gives (exec (.frameL8 0x10#8 1#8 2#8 3#8 4#8 5#8 6#8 7#8 8#8 0xE6#8) State.reset) Decoder.reset
      [.dispatch 0x10#8 8#8 [1#8, 2#8, 3#8, 4#8, 5#8, 6#8, 7#8, 8#8], .resp 0x06#8] [0x06#8] = true ∧
    gives (exec (.frameL9 0x10#8 1#8 2#8 3#8 4#8 5#8 6#8 7#8 8#8 9#8 0xF0#8) State.reset) Decoder.reset
      [.dispatch 0x10#8 9#8 [1#8, 2#8, 3#8, 4#8, 5#8, 6#8, 7#8, 8#8, 9#8], .resp 0x06#8] [0x06#8] = true := by decide
theorem test_V43_frame_L10 :
    gives (exec (.frameL10 0x10#8 1#8 2#8 3#8 4#8 5#8 6#8 7#8 8#8 9#8 10#8 0xFB#8) State.reset) Decoder.reset
      [.dispatch 0x10#8 10#8 [1#8, 2#8, 3#8, 4#8, 5#8, 6#8, 7#8, 8#8, 9#8, 10#8], .resp 0x06#8] [0x06#8] = true := by
  decide

theorem test_V42_frame :
    gives (exec (.frame 0xFF#8 tenFF) State.reset) Decoder.reset
      [.dispatch 0xFF#8 10#8 tenFF, .resp 0x06#8] [0x06#8] = true := by decide
theorem test_P3_badframe :
    gives (exec (.badframe 1#8 [1#8] 0xFF#8) State.reset) Decoder.reset [.resp 0x15#8] [0x15#8] = true := by decide
/-- P4: the second frame's marker is the first one's data. -/
theorem test_P4_raw :
    gives (exec (.raw [0xAA#8, 1#8, 3#8, 0x11#8, 0xAA#8, 1#8, 1#8, 1#8, 0xAD#8]) State.reset) Decoder.reset
      [.resp 0x15#8] [0x15#8] = true := by decide
theorem test_V31_raw_changed_length :
    gives (exec (.raw [0xAA#8, 1#8, 1#8, 0#8, 0xAC#8, 0#8, 0x5A#8]) State.reset) Decoder.reset
      [.dispatch 1#8 1#8 [0#8], .resp 0x06#8] [0x06#8] = true := by decide

theorem test_V60_ack : gives (exec .ack State.reset) Decoder.reset [.resp 0x06#8] [0x06#8] = true := by decide
theorem test_V61_nack : gives (exec .nack State.reset) Decoder.reset [.resp 0x15#8] [0x15#8] = true := by decide
theorem test_V50_encode :
    gives (exec (.encode 3#8 4#8 [0#8, 0#8, 0xCC#8, 0x41#8]) State.reset) Decoder.reset
      [.tx [0xAA#8, 3#8, 4#8, 0#8, 0#8, 0xCC#8, 0x41#8, 0xBE#8]] [0xAA#8, 3#8, 4#8, 0#8, 0#8, 0xCC#8, 0x41#8, 0xBE#8] = true := by
  decide
theorem test_V58_encode_over :
    refuses (exec (.encode 1#8 11#8 (0#8 :: tenFF)) State.reset) .encodeLengthOverMax = true := by decide
theorem test_V57_encode_excess :
    gives (exec (.encode 1#8 1#8 [1#8, 2#8, 3#8]) State.reset) Decoder.reset
      [.tx [0xAA#8, 1#8, 1#8, 1#8, 0xAD#8]] [0xAA#8, 1#8, 1#8, 1#8, 0xAD#8] = true := by decide
theorem test_V70_reset :
    gives (exec .reset (inDec (regs .readPayload 2#8 10#8 2#4 (counting 2)))) Decoder.reset [] [] = true := by decide

/-- 41_checksum.md R89. -/
theorem test_checksum_values :
    checksum 0xAA#8 3#8 4#8 [0#8, 0#8, 0xCC#8, 0x41#8] = 0xBE#8 ∧ checksum 0xAA#8 0x56#8 0#8 [] = 0#8 ∧
    checksum 0xAA#8 0xFF#8 10#8 tenFF = 0xA9#8 := by decide

/-! ### Ports: one clock edge each (45_interfaces.md R125 to R128) -/

/-- A delivered byte that overflows: its response is pending on the transmit port, not yet on the sink. -/
theorem test_port_receive :
    (match clockEdge (Pins.receive 0x0B#8) (inDec (regs .readLength 5#8 0#8 0#4 [])) with
      | .next t => decide (t.dec = Decoder.reset ∧ t.port.tx = [0x15#8] ∧ t.sink = [] ∧
          (t.port.signals (Pins.receive 0xAA#8)).rxReady = false ∧
          (t.port.signals Pins.transmit).tx = some (0x15#8, true))
      | .fault _ | .refused _ => false) = true := by decide

/-- The payload bus: byte `i` in bits `8i + 7` to `8i`, the rest 0. -/
theorem test_payload_bus :
    busOf [0x11#8, 0x22#8] = 0x2211#80 ∧ (busBytes 0x2211#80).take 3 = [0x11#8, 0x22#8, 0#8] := by decide

/-- Reset at a clock edge (R125). -/
theorem test_port_reset :
    gives (clockEdge { Pins.quiet with rst := true, rxValid := true, rxData := 0xAA#8 }
      (inDec (regs .readCommand 0#8 0#8 0#4 []))) Decoder.reset [] [] = true := by decide

/-! ### Witnesses: reset, the step, decoding -/

theorem witness_StepRunsDecodedInstruction :
    ((withStimulus Decoder.reset (.deliver (.byte 0xAA#8))).port.busy = false ∧
      decode Decoder.reset (.byte 0xAA#8) = .ok .wsStart) ∧
    (withStimulus Decoder.reset (.cycle Pins.quiet)).queue = .cycle Pins.quiet :: [] ∧
    (Port.stepPending ⟨[0xAB#8], false, [], false⟩ = false ∧ Port.busy ⟨[0xAB#8], false, [], false⟩ = true) ∧
    (Port.stepPending ⟨[0x06#8], true, [], false⟩ = true ∧
      Port.stepPending ⟨[], false, [.resp 0x06#8], false⟩ = true) ∧
    ((0x05#8 : Byte) ≠ 0x06#8 ∧ (0x07#8 : Byte) ≠ 0x06#8 ∧ (0x14#8 : Byte) ≠ 0x15#8) :=
  ⟨⟨rfl, rfl⟩, rfl, by decide, by decide⟩

/-- A byte delivered while the last byte of an outside ENCODE's frame is on the transmit port (R126, R35). -/
theorem test_transaction_beside_frame :
    gives (step { withStimulus (regs .readLength 5#8 0#8 0#4 []) (.deliver (.byte 0x0B#8)) with
        port := { Port.idle with tx := [0xAB#8] } })
      Decoder.reset [.resp 0x15#8] [0xAB#8, 0x15#8] = true ∧
    refuses (step { withStimulus Decoder.reset (.deliver (.byte 0x0B#8)) with
        port := { Port.idle with tx := [0x15#8], txOfStep := true } }) .outputsPending = true := by decide

theorem witness_TableWordIsRunNext : decodeTableWord 16 0x7FF = some (.xxResetState67 1#1 0xFF#8) := by decide

theorem witness_NothingDeliveredNothingChanges :
    State.reset.queue = [] ∧ (inDec (regs .readPayload 1#8 3#8 1#4 [(0, 5#8)])).queue = [] := ⟨rfl, rfl⟩

theorem witness_ExactlyOneRowSelected :
    stepByte (.rpLast 7#8) = some 7#8 ∧ rowSelected (.rpLast 7#8) (regs .readPayload 1#8 10#8 9#4 []) = true := by
  decide

theorem witness_DecodeInvertsEncode :
    rowSelected (.rpMore 7#8) (regs .readPayload 1#8 10#8 8#4 []) = true ∧
    frameRow 1#8 [] 2#8 = some (.frameL0 1#8 2#8) ∧
    (frameRow 1#8 tenFF 2#8).isSome = true ∧ tenFF.length ≤ 10 ∧
    frameRow 1#8 [1#8] (checksum 0xAA#8 1#8 (lengthByte [1#8]) [1#8]) = some (.frameL1 1#8 1#8 0xAD#8) ∧
    decodeFrame [0xAA#8, 1#8, 11#8] = none ∧ decodeFrame [] = none := by decide

/-! ### Witnesses: the decoder's transitions -/

theorem witness_StartMarkerAccepted : State.reset.dec.state = .waitStart := rfl

theorem witness_OtherBytesDiscarded :
    State.reset.dec.state = .waitStart ∧ (0xA9#8 : Byte) ≠ 0xAA#8 ∧ (0xAB#8 : Byte) ≠ 0xAA#8 := by decide

theorem witness_CommandByteStored : (inDec (regs .readCommand 0#8 0#8 0#4 [])).dec.state = .readCommand := rfl

theorem witness_ZeroLengthSkipsPayload : (inDec (regs .readLength 2#8 0#8 0#4 [])).dec.state = .readLength := rfl

theorem witness_LegalLengthStored :
    (inDec (regs .readLength 2#8 0#8 0#4 [])).dec.state = .readLength ∧
    1 ≤ (1#8 : Byte).toNat ∧ 1 ≤ (10#8 : Byte).toNat ∧ (10#8 : Byte).toNat ≤ 10 := by decide

theorem witness_LengthOverflowRejected :
    (inDec (regs .readLength 2#8 0#8 0#4 [])).dec.state = .readLength ∧
    10 < (11#8 : Byte).toNat ∧ 10 < (255#8 : Byte).toNat := by decide

theorem witness_PayloadByteStored :
    (regs .readPayload 1#8 10#8 8#4 (counting 8)).payloadLength.toNat ≤ 10 ∧
    (regs .readPayload 1#8 10#8 8#4 (counting 8)).index.toNat + 1 < 10 ∧
    Memory.wf (counting 8) = true ∧
    (regs .readPayload 1#8 2#8 0#4 []).index.toNat + 1 < 2 := by decide

theorem witness_LastPayloadByteStored :
    (regs .readPayload 1#8 10#8 9#4 (counting 9)).index.toNat + 1 = 10 ∧
    Memory.wf (counting 9) = true ∧ (regs .readPayload 1#8 1#8 0#4 []).index.toNat + 1 = 1 := by decide

theorem witness_MatchingChecksumDispatchesThenAcks :
    (0xFB#8 : Byte) = checksum 0xAA#8 0x10#8 10#8 (Memory.bytesBelow (counting 10) 10) ∧
    (0xAA#8 : Byte) = checksum 0xAA#8 0#8 0#8 (Memory.bytesBelow [] 0) ∧
    (∀ r ∈ ([⟨0x83#8, 10#8, tenFF⟩, ⟨0x83#8, 0#8, []⟩] : List EncodeRequest), r.ok = true) := by decide

theorem witness_ChecksumMismatchRejected :
    (0xAE#8 : Byte) ≠ checksum 0xAA#8 1#8 1#8 (Memory.bytesBelow [(0, 1#8)] 1) ∧
    decodeStep (regs .readChecksum 1#8 1#8 1#4 [(0, 1#8)]) 0xAE#8 = .rkBad 0xAE#8 := by decide

theorem witness_DefensiveResetConsumesByte :
    (regs .code5 0#8 0#8 0#4 []).state = .code5 ∧ (regs .code6 0#8 0#8 0#4 []).state = .code6 ∧
    (regs .code7 0#8 0#8 0#4 []).state = .code7 ∧
    10 < (regs .readPayload 0#8 11#8 0#4 []).payloadLength.toNat ∧
    (regs .readPayload 0#8 0#8 0#4 []).payloadLength.toNat ≤ (regs .readPayload 0#8 0#8 0#4 []).index.toNat ∧
    10 < (regs .readChecksum 0#8 11#8 0#4 []).payloadLength.toNat := by decide

theorem witness_UnselectedRowRefused :
    stepByte (.rlOver 9#8) = some 9#8 ∧ rowSelected (.rlOver 9#8) (regs .readLength 0#8 0#8 0#4 []) = false := by
  decide

theorem witness_EveryDeliveredByteIsTaken :
    (withStimulus (regs .code7 0#8 0#8 0#4 []) (.deliver (.byte 0#8))).port.stepPending = false ∧
    Port.stepPending ⟨[0xAB#8], false, [], false⟩ = false ∧
    (withStimulus (regs .code7 0#8 0#8 0#4 []) (.deliver (.byte 0#8))).nextRepliesOk :=
  ⟨rfl, rfl, (fun _ h => nomatch h)⟩

/-- Registers in the table of 10_state.md R21, one for each of its rows but the first. -/
theorem witness_decoder_inv :
    Decoder.reset.Inv ∧ (regs .readCommand 0#8 0#8 0#4 []).Inv ∧ (regs .readLength 5#8 0#8 0#4 []).Inv ∧
    (regs .readPayload 5#8 10#8 0#4 []).Inv ∧ (regs .readChecksum 5#8 0#8 0#4 []).Inv := by
  refine ⟨⟨rfl, rfl⟩, ⟨rfl, rfl, rfl, rfl, rfl, rfl⟩, ⟨rfl, rfl, rfl, rfl, rfl⟩,
    ⟨rfl, rfl, by decide, by decide, fun _ _ => rfl⟩, ⟨rfl, rfl, by decide, by decide, fun _ _ => rfl⟩⟩

theorem witness_OutputsOfOneStep :
    (regs .readLength 5#8 0#8 0#4 []).Inv ∧
    responseCount (decStep (regs .readLength 5#8 0#8 0#4 []) 0x0B#8).2 = 1 :=
  ⟨witness_decoder_inv.2.2.1, rfl⟩

theorem witness_MarkerInsideFrameIsData :
    (regs .readCommand 0#8 0#8 0#4 []).state ≠ .waitStart ∧ (regs .readLength 0#8 0#8 0#4 []).state ≠ .waitStart ∧
    (regs .readPayload 0#8 10#8 9#4 (counting 9)).malformed = false ∧ Memory.wf (counting 9) = true := by decide

/-! ### Witnesses: frames of the meanings -/

theorem witness_QuietRowsFrame :
    stepByte (.rlLen 10#8) = some 10#8 ∧
    answers (exec (.rlLen 10#8) (inDec (regs .readLength 1#8 0#8 0#4 [])))
      (inDec (regs .readPayload 1#8 10#8 0#4 [])) = true ∧
    stepByte (.xxResetState5 0#8) = some 0#8 ∧
    answers (exec (.xxResetState5 0#8) (inDec (regs .code5 1#8 0#8 0#4 []))) State.reset = true := by decide

theorem witness_StoringRowsFrame :
    Memory.wf (counting 9) = true ∧
    answers (exec (.rpLast 10#8) (inDec (regs .readPayload 1#8 10#8 9#4 (counting 9))))
      (inDec (regs .readChecksum 1#8 10#8 10#4 (counting 10))) = true := by decide

theorem witness_AnsweringRowsFrame :
    gives (exec (.rlOver 255#8) (inDec (regs .readLength 1#8 0#8 0#4 []))) Decoder.reset [.resp 0x15#8] [0x15#8] = true ∧
    gives (exec (.rkOk 0xAA#8) (inDec (regs .readChecksum 0#8 0#8 0#4 []))) Decoder.reset
      [.dispatch 0#8 0#8 [], .resp 0x06#8] [0x06#8] = true := by decide

theorem witness_SinkRowsLeaveDecoderAlone :
    gives (exec .ack (inDec (regs .readLength 1#8 0#8 0#4 []))) (regs .readLength 1#8 0#8 0#4 [])
      [.resp 0x06#8] [0x06#8] = true ∧
    gives (exec (.encode 1#8 0#8 []) (inDec (regs .readLength 1#8 0#8 0#4 []))) (regs .readLength 1#8 0#8 0#4 [])
      [.tx [0xAA#8, 1#8, 0#8, 0xAB#8]] [0xAA#8, 1#8, 0#8, 0xAB#8] = true := by decide

theorem witness_EncodeEmitsFrame :
    (0#8 : Byte).toNat ≤ 10 ∧ (0#8 : Byte).toNat ≤ ([] : List Byte).length ∧
    (10#8 : Byte).toNat ≤ 10 ∧ (10#8 : Byte).toNat ≤ tenFF.length := by decide

theorem witness_RequestsOutsideTheirDomainRefused :
    10 < (11#8 : Byte).toNat ∧ ((10#8 : Byte).toNat ≤ 10 ∧ (List.replicate 9 0#8).length < (10#8 : Byte).toNat) ∧
    10 < (0#8 :: tenFF).length ∧ (0xAD#8 : Byte) = checksum 0xAA#8 1#8 (lengthByte [1#8]) [1#8] := by decide

theorem witness_FrameRowsRunTheirBytes :
    { State.reset with replies := [[⟨0x83#8, 10#8, tenFF⟩], []] }.allRepliesOk ∧ State.reset.allRepliesOk := by
  refine ⟨?_, (fun _ h => nomatch h)⟩
  show ∀ rs ∈ ([[⟨0x83#8, 10#8, tenFF⟩], []] : List (List EncodeRequest)), ∀ r ∈ rs, r.ok = true
  decide

theorem witness_PseudoInstructionsRunTheirExpansion :
    State.reset.allRepliesOk ∧ tenFF.length ≤ 10 ∧
    (0xFF#8 : Byte) ≠ checksum 0xAA#8 1#8 (lengthByte [1#8]) [1#8] :=
  ⟨(fun _ h => nomatch h), by decide, by decide⟩

theorem witness_GoodFrameIsDispatched :
    State.reset.dec = Decoder.reset ∧ tenFF.length ≤ 10 ∧ State.reset.nextRepliesOk ∧
    (frameRow 0xFF#8 tenFF (checksum 0xAA#8 0xFF#8 (lengthByte tenFF) tenFF)).isSome = true ∧
    frameRow 0#8 [] (checksum 0xAA#8 0#8 (lengthByte []) []) = some (.frameL0 0#8 0xAA#8) :=
  ⟨rfl, by decide, (fun _ h => nomatch h), by decide, by decide⟩

theorem witness_BadFrameIsRejected :
    State.reset.dec = Decoder.reset ∧ (0xFF#8 : Byte) ≠ checksum 0xAA#8 1#8 (lengthByte [1#8]) [1#8] ∧
    frameRow 1#8 [1#8] 0xFF#8 = some (.frameL1 1#8 1#8 0xFF#8) := ⟨rfl, by decide, rfl⟩

theorem witness_RunOfBytesIsByteSteps :
    State.reset.port.stepPending = false ∧ State.reset.port.tx = [] ∧
    Port.stepPending ⟨[0xAB#8], false, [], false⟩ = false ∧ ([0xAA#8] : List Byte) ≠ [] :=
  ⟨rfl, rfl, rfl, by decide⟩

/-! ### Witnesses: checksum, encoder, streams -/

theorem witness_ChecksumIsSumModulo256 :
    (10#8 : Byte).toNat = tenFF.length ∧ tenFF.length ≤ 10 ∧ (0#8 : Byte).toNat = ([] : List Byte).length := by decide

theorem witness_ChecksumDetectsOneChange :
    (0#8 : Byte) ≠ 255#8 ∧ List.Perm ([0x10#8, 0x20#8] : List Byte) [0x20#8, 0x10#8] :=
  ⟨by decide, .swap _ _ _⟩

theorem witness_EncoderOutputs :
    tenFF.length ≤ 10 ∧ encodeFrame 1#8 tenFF = encodeFrame 1#8 tenFF ∧
    wellFormedFrame [0xAA#8, 0#8, 0#8, 0xAA#8] = true ∧ wellFormedFrame [0xAA#8, 0#8, 0#8, 0xAB#8] = false := by
  decide

theorem witness_EncodedFrameRoundTrips : tenFF.length ≤ 10 ∧ ([] : List Byte).length ≤ 10 := by decide

theorem witness_FrameInFlightIsSilent : tenFF.length ≤ 10 ∧ 13 < 4 + tenFF.length ∧ 0 < 13 := by decide

theorem witness_OneChangedByteIsRejected :
    (encodeFrame 1#8 [1#8])[1]? ≠ some 0#8 ∧ (encodeFrame 1#8 [1#8])[3]? ≠ some 0x81#8 ∧
    (encodeFrame 1#8 [1#8])[4]? ≠ some 0xAC#8 ∧ (encodeFrame 0xFF#8 tenFF)[13]? ≠ some 0#8 := by decide

theorem witness_ChangedMarkerOrLength :
    (0xAB#8 : Byte) ≠ 0xAA#8 ∧ 10 < (11#8 : Byte).toNat ∧ (9#8 : Byte).toNat < tenFF.length ∧
    (0#8 : Byte).toNat < tenFF.length ∧ ([1#8] : List Byte).length < (2#8 : Byte).toNat ∧ (10#8 : Byte).toNat ≤ 10 := by
  decide

theorem witness_LengthBoundEnforced :
    (regs .readLength 1#8 0#8 0#4 []).state = .readLength ∧ 10 < (11#8 : Byte).toNat ∧ 10 < (255#8 : Byte).toNat := by
  decide

theorem witness_GarbageIsSkipped :
    ∀ b ∈ ([0#8, 0x15#8, 0x06#8, 0xFF#8, 0x55#8] : List Byte), b ≠ 0xAA#8 := by decide

theorem witness_ReturnIsFullReset :
    ((regs .readLength 1#8 0#8 0#4 []).state ≠ .waitStart ∧
      (decStep (regs .readLength 1#8 0#8 0#4 []) 11#8).1.state = .waitStart) ∧
    responseCount (decStep (regs .readChecksum 0#8 0#8 0#4 []) 0xAA#8).2 ≠ 0 ∧
    (regs .readPayload 0#8 3#8 3#4 []).malformed = true := by decide

theorem witness_ConsecutiveFramesIndependent :
    ∀ f ∈ ([([0#8, 0x55#8], 1#8, [1#8]), ([], 0xFF#8, tenFF)] : List (List Byte × Byte × List Byte)),
      (∀ b ∈ f.1, b ≠ 0xAA#8) ∧ f.2.2.length ≤ 10 := by decide

theorem witness_FlushReturnsToReset :
    (regs .readPayload 5#8 10#8 0#4 []).Inv ∧ 10 < (11#8 : Byte).toNat ∧ 10 < (255#8 : Byte).toNat ∧
    (255#8 : Byte) ≠ 0xAA#8 ∧ (11#8 : Byte) ≠ 0xAA#8 :=
  ⟨witness_decoder_inv.2.2.2.1, by decide⟩

/-! ### Witnesses: the invariant and the ports -/

/-- A state of the invariant in the middle of a port-level dispatch. -/
def dispatching : State :=
  { State.reset with
    log := [.dispatch 1#8 1#8 [1#8]]
    port := { tx := [], txOfStep := false, out := [.dispatch 1#8 1#8 [1#8], .resp 0x06#8], dispShown := true } }

theorem witness_StepKeepsInvariant :
    State.reset.Inv ∧ dispatching.Inv ∧
    answers (step { dispatching with queue := [.cycle Pins.quiet] }) dispatching = true := by
  refine ⟨⟨⟨rfl, rfl⟩, (fun _ h => nomatch h), rfl, .none, (fun h => nomatch h)⟩,
    ⟨⟨rfl, rfl⟩, ?_, rfl, .dispatchFirst _ _ _ ⟨rfl, by decide⟩, fun _ => ⟨_, _, _, _, rfl⟩⟩, by decide⟩
  intro e he
  rw [List.mem_singleton.mp he]
  exact ⟨rfl, by decide⟩

theorem witness_NoStepFaults :
    let d := regs .readPayload 0x10#8 10#8 9#4 (counting 9)
    let e := regs .readChecksum 0x10#8 10#8 10#4 (counting 10)
    Memory.wf d.payload = true ∧ answers (exec (.rpLast 10#8) (inDec d)) (inDec e) = true ∧
    answers (step (withStimulus d (.deliver (.byte 10#8)))) (inDec e) = true ∧
    gives (step (withStimulus d (.cycle (Pins.receive 10#8)))) e [] [] = true ∧
    gives (exec (.raw [10#8, 0xFA#8]) (inDec d)) Decoder.reset [.resp 0x15#8] [0x15#8] = true := by decide

theorem witness_PortDeliversOnHandshake :
    (State.reset.port.signals (Pins.receive 0xAA#8)).rxReady = true ∧
    (dispatching.port.signals (Pins.receive 0xAA#8)).rxReady = false ∧
    (State.reset.port.signals { Pins.receive 0xAA#8 with rst := true }).rxReady = false ∧
    gives (clockEdge { Pins.quiet with rst := true } State.reset) Decoder.reset [] [] = true ∧
    gives (clockEdge (Pins.receive 0xAA#8) State.reset) (regs .readCommand 0#8 0#8 0#4 []) [] [] = true ∧
    gives (clockEdge Pins.quiet (inDec (regs .readCommand 0#8 0#8 0#4 []))) (regs .readCommand 0#8 0#8 0#4 []) [] [] = true ∧
    answers (clockEdge (Pins.receive 0xAA#8) dispatching) dispatching = true := by decide

theorem witness_ClockEdgeCompletes :
    dispatching.port.stepPending = true ∧ State.reset.port.stepPending = false ∧
    (Pins.encodeInDispatch 1#8 10#8 0#80).encLen.toNat ≤ 10 ∧
    refuses (clockEdge { Pins.quiet with rst := true } dispatching) .resetWhileOutputsPending = true ∧
    (dispatching.port.signals (Pins.encodeInDispatch 1#8 11#8 0#80)).encReady = true ∧
    10 < (Pins.encodeInDispatch 1#8 11#8 0#80).encLen.toNat ∧
    refuses (clockEdge (Pins.encodeInDispatch 1#8 11#8 0#80) dispatching) .encodeLengthOverMax = true := by decide

/-- Requests outside a dispatch: no payload byte, and all ten of them with byte 0 in bits 7 to 0 (R128; the
checksum by hand from R85, 170 + 1 + 10 + 55 = 236); then
one with `rst` 1 (log 20). -/
theorem witness_ClockEdgeCompletes_outside_dispatch :
    let empty := Pins.encodeInDispatch 1#8 0#8 0#80
    let full := Pins.encodeInDispatch 1#8 10#8 0x0A090807060504030201#80
    State.reset.port.out = [] ∧ (State.reset.port.signals full).encReady = true ∧
    gives (clockEdge empty State.reset) Decoder.reset [.tx [0xAA#8, 1#8, 0#8, 0xAB#8]] [] = true ∧
    gives (clockEdge full State.reset) Decoder.reset
      [.tx [0xAA#8, 1#8, 10#8, 1#8, 2#8, 3#8, 4#8, 5#8, 6#8, 7#8, 8#8, 9#8, 10#8, 0xEC#8]] [] = true ∧
    gives (clockEdge { empty with rst := true } (inDec (regs .readCommand 0#8 0#8 0#4 []))) Decoder.reset
      [.tx [0xAA#8, 1#8, 0#8, 0xAB#8]] [] = true := by decide

/-- A state of the invariant whose last step's response is on the transmit port. -/
def answering : State :=
  { State.reset with
    log := [.resp 0x15#8]
    port := { tx := [0x15#8], txOfStep := true, out := [], dispShown := false } }

theorem witness_PortDeliversOnHandshake_inv : answering.Inv ∧ dispatching.Inv := by
  refine ⟨⟨⟨rfl, rfl⟩, ?_, rfl, .none, (fun h => nomatch h)⟩, witness_StepKeepsInvariant.2.1⟩
  intro e he
  rw [List.mem_singleton.mp he]
  exact .inr rfl

/-- The outputs of a step: they come to be pending with it, and stay so until the response is taken (R126). -/
theorem witness_PortDeliversOnHandshake_pending :
    let overflow := inDec (regs .readLength 5#8 0#8 0#4 [])
    overflow.port.stepPending = false ∧ (decStep overflow.dec 0x0B#8).2 ≠ [] ∧
    answers (clockEdge (Pins.receive 0x0B#8) overflow) answering = true ∧
    (decStep State.reset.dec 0xAA#8).2 = [] ∧ answering.port.stepPending = true ∧
    answers (clockEdge Pins.quiet answering) answering = true ∧
    (answering.port.signals Pins.transmit).tx = some (0x15#8, true) ∧
    (match clockEdge Pins.transmit answering with
      | .next t => !t.port.stepPending && (t.port.signals Pins.quiet).rxReady
      | .fault _ | .refused _ => false) = true ∧
    dispatching.port.out ≠ [] ∧ dispatching.port.stepPending = true ∧
    (match clockEdge Pins.dispatchDone dispatching with
      | .next t => t.port.stepPending
      | .fault _ | .refused _ => false) = true := by decide

/-- A two-byte sequence on the transmit port: its first byte, then its last one, then no transfer. -/
theorem witness_PortSequencesAreContiguous :
    let p : Port := { tx := [1#8, 2#8], txOfStep := false, out := [], dispShown := false }
    let q : Port := { tx := [2#8], txOfStep := false, out := [], dispShown := false }
    (p.signals Pins.transmit).tx = some (1#8, false) ∧
    answers (clockEdge Pins.transmit { State.reset with port := p }) { State.reset with port := q, sink := [1#8] } = true ∧
    (q.signals Pins.transmit).tx = some (2#8, true) ∧
    answers (clockEdge Pins.transmit { State.reset with port := q })
      { State.reset with port := Port.idle, sink := [2#8] } = true ∧
    (p.signals Pins.quiet).tx = none ∧
    answers (clockEdge Pins.quiet { State.reset with port := p }) { State.reset with port := p } = true := by decide

/-- The dispatch of `dispatching` before it is presented. -/
def undispatched : State := { dispatching with port := { dispatching.port with dispShown := false } }

theorem witness_PortHoldsResponseUntilDispatchDone :
    dispatching.port.out = .dispatch 1#8 1#8 [1#8] :: [.resp 0x06#8] ∧
    answers (clockEdge Pins.quiet dispatching) dispatching = true ∧
    undispatched.port.dispShown = false ∧
    (undispatched.port.signals { Pins.quiet with dispGo := true }).disp = some (1#8, 1#8, 1#80) ∧
    answers (clockEdge { Pins.quiet with dispGo := true } undispatched) dispatching = true ∧
    (dispatching.port.signals Pins.quiet).disp = some (1#8, 1#8, 1#80) ∧
    (undispatched.port.signals { Pins.quiet with dispDone := true }).disp = none ∧
    answers (clockEdge { Pins.quiet with dispDone := true } undispatched) undispatched = true ∧
    (dispatching.port.signals Pins.dispatchDone).disp = some (1#8, 1#8, 1#80) ∧
    gives (clockEdge Pins.dispatchDone dispatching) Decoder.reset [.dispatch 1#8 1#8 [1#8], .resp 0x06#8] [] = true ∧
    busOf [1#8, 2#8, 3#8] = 0x030201#80 := by
  decide

theorem witness_PortRejectionMatchesTransaction :
    State.reset.port.stepPending = false ∧ Port.stepPending ⟨[0xAB#8], false, [], false⟩ = false ∧
    (decStep (regs .readLength 5#8 0#8 0#4 []) 0x0B#8).2 = [.resp 0x15#8] := by decide

theorem witness_PortDispatchMatchesTransaction :
    State.reset.port.busy = false ∧ State.reset.port.dispShown = false ∧
    decodeStep (regs .readChecksum 1#8 1#8 1#4 [(0, 1#8)]) 0xAD#8 = .rkOk 0xAD#8 ∧
    (∀ r ∈ ([(0x83#8, 0#8, 0#80), (0x83#8, 10#8, 5#80)] : List (Byte × Byte × BitVec 80)), r.2.1.toNat ≤ 10) :=
  ⟨rfl, rfl, by decide, by simp⟩

end Sys2Proof.Tests
end

section
/-!
PROOFS. The state family: what a delivery does, in terms of the whole decoder step (40_decoder.md R77); that a
decoder step keeps the table of R21 and emits what R78 allows; that every transaction and every part of a clock
edge keeps the machine's invariant.
-/

namespace Sys2Proof.Machine

/-! ### A delivered byte: the selected row is the whole step -/

theorem readPayload_bounds {d : Decoder} (hs : d.state = .readPayload) (hm : d.malformed = false) :
    d.payloadLength.toNat ≤ 10 ∧ d.index.toNat < d.payloadLength.toNat := by
  have := mt (malformed_readPayload hs).mpr (by simp [hm])
  omega

theorem readChecksum_bound {d : Decoder} (hs : d.state = .readChecksum) (hm : d.malformed = false) :
    d.payloadLength.toNat ≤ 10 := by
  have := mt (malformed_readChecksum hs).mpr (by simp [hm])
  omega

/-- Malformed registers select one of the XX.RESET rows (R76), whatever the byte. -/
theorem decodeStep_of_malformed {d : Decoder} (hm : d.malformed = true) (b : Byte) :
    (∃ st, decodeStep d b = .xxResetMalformed st b) ∨ decodeStep d b = .xxResetState5 b ∨
      ∃ lo, decodeStep d b = .xxResetState67 lo b := by
  unfold decodeStep
  cases hs : d.state with
  | waitStart | readCommand | readLength => simp [Decoder.malformed, Decoder.malformedRegisters, hs] at hm
  | readPayload => exact .inl ⟨3#3, if_pos (malformed_eq_registers (.inl hs) ▸ hm)⟩
  | readChecksum => exact .inl ⟨4#3, if_pos (malformed_eq_registers (.inr hs) ▸ hm)⟩
  | code5 => exact .inr (.inl rfl)
  | code6 => exact .inr (.inr ⟨0#1, rfl⟩)
  | code7 => exact .inr (.inr ⟨1#1, rfl⟩)

/-- The row the registers select for a byte meets its encoding's condition (R51). -/
theorem rowSelected_decodeStep (d : Decoder) (b : Byte) : rowSelected (decodeStep d b) d = true := by
  unfold decodeStep
  cases hs : d.state with
  | waitStart => dsimp only; split_ifs with hb <;> simp [rowSelected, hs, hb]
  | readCommand => simp [rowSelected, hs]
  | readLength =>
    dsimp only
    split_ifs with h0 hover
    · simp [rowSelected, hs]
    · simp [rowSelected, hs, hover]
    · simp [rowSelected, hs, h0, hover]
  | readPayload =>
    dsimp only
    split_ifs with hreg hmore
    · simp [rowSelected, hs, hreg, Phase.code]
    · simp [rowSelected, hs, malformed_eq_registers (.inl hs), hreg, hmore]
    · have hm : d.malformed = false := by simpa [malformed_eq_registers (.inl hs)] using hreg
      have hi := (readPayload_bounds hs hm).2
      have hlast : d.lastToCome = true := by
        simp only [Decoder.moreToCome, decide_eq_true_eq] at hmore
        rw [Decoder.lastToCome, decide_eq_true_eq]
        omega
      simp [rowSelected, hs, hm, hlast]
  | readChecksum =>
    dsimp only
    split_ifs with hreg hb
    · simp [rowSelected, hs, hreg, Phase.code]
    all_goals simp [rowSelected, hs, malformed_eq_registers (.inr hs), hreg, hb]
  | code5 | code6 | code7 => simp [rowSelected, hs]

/-- `whenSelected` lets the row of the present registers pass. -/
theorem whenSelected_decodeStep {i : Instr} {s : State} {b : Byte} (hrow : decodeStep s.dec b = i)
    (effect : State → Result) : whenSelected i s effect = effect s :=
  whenSelected_of_selected (hrow ▸ rowSelected_decodeStep s.dec b)

section SelectedRow

variable {s : State} (b : Byte)

theorem exec_decodeStep_waitStart (hs : s.dec.state = .waitStart) :
    exec (decodeStep s.dec b) s = deliverByte b s := by
  rw [deliverByte, decStep_waitStart b hs]
  by_cases hb : b = 0xAA#8
  · have hrow : decodeStep s.dec b = .wsStart := by simp [decodeStep, hs, hb, isStartMarker]
    rw [hrow, if_pos hb, hb, exec, execWsStart, whenSelected_decodeStep hrow]
    rfl
  · have hrow : decodeStep s.dec b = .wsSkip b := by simp [decodeStep, hs, hb, isStartMarker]
    rw [hrow, if_neg hb, exec, execWsSkip, whenSelected_decodeStep hrow]
    rfl

theorem exec_decodeStep_readCommand (hs : s.dec.state = .readCommand) :
    exec (decodeStep s.dec b) s = deliverByte b s := by
  have hrow : decodeStep s.dec b = .rcCmd b := by simp [decodeStep, hs]
  rw [deliverByte, decStep_readCommand b hs, hrow, exec, execRcCmd, whenSelected_decodeStep hrow]
  rfl

theorem exec_decodeStep_readLength (hs : s.dec.state = .readLength) :
    exec (decodeStep s.dec b) s = deliverByte b s := by
  rw [deliverByte, decStep_readLength b hs]
  by_cases hb : 10 < b.toNat
  · have h0 : b ≠ 0#8 := by rintro rfl; simp at hb
    have hover := (isOverLength_iff b).mpr hb
    have hrow : decodeStep s.dec b = .rlOver b := by simp [decodeStep, hs, h0, hover]
    rw [hrow, if_pos hb, exec, execRlOver, whenSelected_decodeStep hrow]
    rfl
  · have hover := (isOverLength_eq_false b).mpr (by omega)
    rw [if_neg hb]
    by_cases h0 : b = 0#8
    · have hrow : decodeStep s.dec b = .rlZero := by simp [decodeStep, hs, h0]
      rw [hrow, if_pos h0, exec, execRlZero, whenSelected_decodeStep hrow]
      rfl
    · have hrow : decodeStep s.dec b = .rlLen b := by simp [decodeStep, hs, h0, hover]
      rw [hrow, if_neg h0, exec, execRlLen, whenSelected_decodeStep hrow]
      rfl

/-- A store inside the buffer completes. -/
theorem storePayloadThen_of_lt (p : Phase) (h : s.dec.index.toNat < 10) :
    storePayloadThen b p s =
      .next (s.withDec { s.dec with
        payload := Memory.writeByte s.dec.payload s.dec.index.toNat b
        index := s.dec.index + 1#4
        state := p }) := by
  simp [storePayloadThen, Decoder.storePayload, Memory.memWrite, maxPayload_eq, h, Decoder.goto]

theorem exec_decodeStep_readPayload (hs : s.dec.state = .readPayload) (hm : s.dec.malformed = false) :
    exec (decodeStep s.dec b) s = deliverByte b s := by
  have hreg : s.dec.malformedRegisters = false := malformed_eq_registers (.inl hs) ▸ hm
  obtain ⟨hl, hi⟩ := readPayload_bounds hs hm
  rw [deliverByte, decStep_readPayload b hs hl hi]
  by_cases hlast : s.dec.index.toNat + 1 = s.dec.payloadLength.toNat
  · have hmore : s.dec.moreToCome = false := by rw [Decoder.moreToCome, decide_eq_false_iff_not]; omega
    have hrow : decodeStep s.dec b = .rpLast b := by simp [decodeStep, hs, hreg, hmore]
    rw [hrow, if_pos hlast, exec, execRpLast, whenSelected_decodeStep hrow]
    exact storePayloadThen_of_lt b .readChecksum (by omega)
  · have hmore : s.dec.moreToCome = true := by rw [Decoder.moreToCome, decide_eq_true_eq]; omega
    have hrow : decodeStep s.dec b = .rpMore b := by simp [decodeStep, hs, hreg, hmore]
    rw [hrow, if_neg hlast, exec, execRpMore, whenSelected_decodeStep hrow]
    exact storePayloadThen_of_lt b .readPayload (by omega)

theorem exec_decodeStep_readChecksum (hs : s.dec.state = .readChecksum) (hm : s.dec.malformed = false) :
    exec (decodeStep s.dec b) s = deliverByte b s := by
  have hreg : s.dec.malformedRegisters = false := malformed_eq_registers (.inr hs) ▸ hm
  rw [deliverByte, decStep_readChecksum b hs (readChecksum_bound hs hm)]
  by_cases hb : b = s.dec.checksum
  · have hrow : decodeStep s.dec b = .rkOk b := by simp [decodeStep, hs, hreg, ← hb]
    rw [hrow, if_pos hb, perform_dispatch, dispatch_withDec, andThen_assoc, exec, execRkOk,
      whenSelected_decodeStep hrow]
    rfl
  · have hrow : decodeStep s.dec b = .rkBad b := by simp [decodeStep, hs, hreg, hb]
    rw [hrow, if_neg hb, exec, execRkBad, whenSelected_decodeStep hrow]
    rfl

theorem exec_decodeStep_malformed (hm : s.dec.malformed = true) :
    exec (decodeStep s.dec b) s = deliverByte b s := by
  rw [deliverByte, decStep_malformed b hm]
  rcases decodeStep_of_malformed hm b with ⟨st, hrow⟩ | hrow | ⟨lo, hrow⟩ <;> rw [hrow]
  · exact whenSelected_decodeStep hrow _
  · exact whenSelected_decodeStep hrow _
  · exact whenSelected_decodeStep hrow _

end SelectedRow

/-- The row the registers select for a byte is the whole decoder step (R77), from every state. -/
theorem exec_decodeStep (s : State) (b : Byte) : exec (decodeStep s.dec b) s = deliverByte b s := by
  cases hm : s.dec.malformed with
  | true => exact exec_decodeStep_malformed b hm
  | false =>
    cases hs : s.dec.state with
    | waitStart => exact exec_decodeStep_waitStart b hs
    | readCommand => exact exec_decodeStep_readCommand b hs
    | readLength => exact exec_decodeStep_readLength b hs
    | readPayload => exact exec_decodeStep_readPayload b hs hm
    | readChecksum => exact exec_decodeStep_readChecksum b hs hm
    | code5 | code6 | code7 => simp [Decoder.malformed, hs] at hm

/-! ### Consecutive bytes: a FRAME row delivers its bytes -/

theorem exec_frameRow {c k : Byte} {p : List Byte} {i : Instr} (h : frameRow c p k = some i) (s : State) :
    exec i s = deliverBytes (frameBytes c p k) s := by
  unfold frameRow at h
  split at h <;> cases h <;> rfl

/-- Bytes that decode to a FRAME row are the frame of its command, payload and last byte. -/
theorem frameBytes_of_decodeFrame {bs : List Byte} {i : Instr} (h : decodeFrame bs = some i) :
    ∃ c p k, frameRow c p k = some i ∧ frameBytes c p k = bs := by
  unfold decodeFrame at h
  split at h
  case h_2 => cases h
  case h_1 m c n rest =>
    split_ifs at h with hpat
    obtain ⟨rfl, -, hlen⟩ := hpat
    refine ⟨c, _, _, h, ?_⟩
    have hne : rest ≠ [] := by rintro rfl; simp at hlen
    have hsplit : rest.take n.toNat ++ [rest.getLastD 0#8] = rest := by
      have htake : rest.take n.toNat = rest.dropLast := by rw [List.dropLast_eq_take, hlen, Nat.add_sub_cancel]
      rw [htake, List.getLastD_eq_getLast?, List.getLast?_eq_some_getLast hne]
      exact List.dropLast_append_getLast hne
    have hbyte : lengthByte (rest.take n.toNat) = n := by simp [lengthByte, hlen]
    rw [frameBytes, hsplit, hbyte]

/-- Consecutive bytes, decoded and executed, are delivered one after the other (log 6). -/
theorem exec_decodeBytes (bs : List Byte) (s : State) : exec (decodeBytes bs) s = deliverBytes bs s := by
  unfold decodeBytes
  cases h : decodeFrame bs with
  | none => rfl
  | some i =>
    obtain ⟨c, p, k, hrow, hbs⟩ := frameBytes_of_decodeFrame h
    exact hbs ▸ exec_frameRow hrow s

/-! ### The decoder step keeps the table of R21 and emits what R78 allows -/

theorem inv_reset : Decoder.reset.Inv := ⟨rfl, rfl⟩

/-- A stored byte leaves zeros from the next address on. -/
theorem zeroFrom_writeByte {m : Memory} {n : Nat} (b : Byte) (hw : Memory.wf m = true)
    (hz : Memory.zeroFrom m n) : Memory.zeroFrom (Memory.writeByte m n b) (n + 1) := by
  intro a ha
  rw [readByte_writeByte n b a hw, if_neg (by omega)]
  exact hz a (by omega)

theorem inv_decStep {d : Decoder} (b : Byte) (h : d.Inv) : (decStep d b).1.Inv := by
  obtain ⟨hwf, htab⟩ := h
  refine ⟨wf_decStep b hwf, ?_⟩
  cases hs : d.state with
  | waitStart =>
    simp only [hs] at htab
    rw [decStep_waitStart b hs, htab]
    split_ifs with hb
    · exact ⟨hb, rfl, rfl, rfl, rfl⟩
    · rfl
  | readCommand =>
    simp only [hs] at htab
    obtain ⟨hsm, -, hlen, hidx, hpay⟩ := htab
    rw [decStep_readCommand b hs]
    exact ⟨hsm, hlen, hidx, hpay⟩
  | readLength =>
    simp only [hs] at htab
    obtain ⟨hsm, -, hidx, hpay⟩ := htab
    have hzero : Memory.zeroFrom d.payload 0 := by rw [hpay]; exact fun _ _ => rfl
    rw [decStep_readLength b hs]
    split_ifs with hover h0
    · rfl
    · exact ⟨hsm, Nat.zero_le _, by simp [hidx], hzero⟩
    · have hpos : 0 < b.toNat := Nat.pos_of_ne_zero fun h => h0 (BitVec.eq_of_toNat_eq h)
      exact ⟨hsm, Nat.le_of_not_lt hover, hpos, hzero⟩
  | readPayload =>
    simp only [hs] at htab
    obtain ⟨hsm, hlen, hidx, hzero⟩ := htab
    rw [maxPayload_eq] at hlen
    have hsucc := toNat_index_succ d.index (by omega)
    have hstored := zeroFrom_writeByte b hwf hzero
    rw [decStep_readPayload b hs hlen hidx]
    split_ifs with hlast
    · exact ⟨hsm, hlen, hsucc.trans hlast, hlast ▸ hstored⟩
    · refine ⟨hsm, hlen, ?_, ?_⟩ <;> dsimp only <;> rw [hsucc]
      · omega
      · exact hstored
  | readChecksum =>
    simp only [hs] at htab
    obtain ⟨-, hlen, -, -⟩ := htab
    rw [decStep_readChecksum b hs hlen]
    split_ifs <;> rfl
  | code5 | code6 | code7 => simp [hs] at htab

/-- From any registers, a decoder step emits nothing, one response, or a legal dispatch and its ACK (R78). -/
theorem pendingLegal_decStep (d : Decoder) (b : Byte) : PendingLegal (decStep d b).2 := by
  cases hm : d.malformed with
  | true => rw [decStep_malformed b hm]; exact .none
  | false =>
    cases hs : d.state with
    | waitStart => rw [decStep_waitStart b hs]; split_ifs <;> exact .none
    | readCommand => rw [decStep_readCommand b hs]; exact .none
    | readLength =>
      rw [decStep_readLength b hs]
      split_ifs
      · exact .response _ (.inr rfl)
      · exact .none
      · exact .none
    | readPayload =>
      obtain ⟨hl, hi⟩ := readPayload_bounds hs hm
      rw [decStep_readPayload b hs hl hi]
      exact .none
    | readChecksum =>
      have hlen := readChecksum_bound hs hm
      rw [decStep_readChecksum b hs hlen]
      split_ifs
      · have hp : d.payloadInUse.length = d.payloadLength.toNat := length_bytesBelow _ _
        exact .dispatchFirst _ _ _ ⟨hp.symm, hp.le.trans hlen⟩
      · exact .response _ (.inr rfl)
    | code5 | code6 | code7 => simp [Decoder.malformed, hs] at hm

theorem PendingLegal.legal {es : List Event} (h : PendingLegal es) : ∀ e ∈ es, e.Legal := by
  cases h with
  | none => simp
  | response b hb => simpa [Event.Legal] using hb
  | dispatchFirst c n p hp => simpa [Event.Legal] using hp

/-! ### The encoder's frames are well formed -/

theorem wellFormedFrame_encodeFrame (cmd : Byte) {p : List Byte} (h : p.length ≤ 10) :
    wellFormedFrame (encodeFrame cmd p) = true := by
  have hlen : (lengthByte p).toNat = p.length := by
    rw [lengthByte, BitVec.toNat_ofNat]
    omega
  simp [encodeFrame, frameBytes, wellFormedFrame, frameChecksum, checksum, byteSum, hlen, maxPayload_eq, h,
    Nat.add_assoc]

theorem legal_frame {r : EncodeRequest} (h : r.ok = true) : (Event.tx r.frame).Legal := by
  obtain ⟨hmax, hdata⟩ := (ok_iff r).mp h
  exact wellFormedFrame_encodeFrame r.cmd (by rw [EncodeRequest.payload, List.length_take]; omega)

/-! ### Transactions -/

/-- The invariant, with no sequence left on the transmit port: the sink alone is what was emitted. -/
structure State.Settled (s : State) : Prop where
  inv : s.Inv
  tx : s.port.tx = []

theorem State.Inv.withQueue {s : State} (h : s.Inv) (q : List Stimulus) : (s.withQueue q).Inv :=
  ⟨h.dec, h.log, h.sink, h.out, h.shown⟩

theorem State.Inv.withDec {s : State} (h : s.Inv) {d : Decoder} (hd : d.Inv) : (s.withDec d).Inv :=
  ⟨hd, h.log, h.sink, h.out, h.shown⟩

theorem State.Inv.settled_finishFrame {s : State} (h : s.Inv) : s.finishFrame.Settled :=
  ⟨⟨h.dec, h.log, by simp [h.sink], h.out, h.shown⟩, rfl⟩

theorem State.Settled.withDec {s : State} (h : s.Settled) {d : Decoder} (hd : d.Inv) : (s.withDec d).Settled :=
  ⟨h.inv.withDec hd, h.tx⟩

theorem State.Settled.withReplies {s : State} (h : s.Settled) (r : List (List EncodeRequest)) :
    (s.withReplies r).Settled :=
  ⟨⟨h.inv.dec, h.inv.log, h.inv.sink, h.inv.out, h.inv.shown⟩, h.tx⟩

theorem legal_log_append {l : List Event} {e : Event} (hl : ∀ x ∈ l, x.Legal) (he : e.Legal) :
    ∀ x ∈ l ++ [e], x.Legal := by
  simpa [or_imp, forall_and] using ⟨hl, he⟩

theorem State.Settled.emit {s : State} (h : s.Settled) {e : Event} (he : e.Legal) : (s.emit e).Settled := by
  have hsink : sinkOf s.log = s.sink := by simpa [h.tx] using h.inv.sink
  exact ⟨⟨h.inv.dec, legal_log_append h.inv.log he, by simp [hsink, h.tx], h.inv.out, h.inv.shown⟩, h.tx⟩

/-- All an encode request can do: its frame emitted, or a named refusal. -/
theorem runEncode_eq_next {r : EncodeRequest} {s t : State} (h : runEncode r s = .next t) :
    r.ok = true ∧ t = s.emit (.tx r.frame) := by
  cases hr : r.ok with
  | true => rw [runEncode_of_ok hr] at h; cases h; exact ⟨rfl, rfl⟩
  | false => rcases runEncode_of_not_ok hr s with e | e <;> rw [e] at h <;> cases h

theorem settled_afterFrames {rs : List EncodeRequest} (hok : ∀ r ∈ rs, r.ok = true) {s : State} (h : s.Settled) :
    (afterFrames rs s).Settled := by
  induction rs generalizing s with
  | nil => rwa [afterFrames_nil]
  | cons r rs ih =>
    rw [afterFrames_cons]
    exact ih (fun x hx => hok x (.tail r hx)) (h.emit (legal_frame (hok r (.head rs))))

theorem settled_dispatch {c n : Byte} {p : List Byte} {s t : State} (hp : packetLegal n p) (h : s.Settled)
    (ht : dispatch c n p s = .next t) : t.Settled := by
  rcases dispatch_cases c n p s with ⟨hok, e⟩ | ⟨-, e | e⟩ <;> rw [e] at ht <;> cases ht
  exact settled_afterFrames hok ((h.emit (e := .dispatch c n p) hp).withReplies _)

theorem settled_perform {es : List Event} (hes : ∀ e ∈ es, e.Legal) {s t : State} (h : s.Settled)
    (ht : perform es s = .next t) : t.Settled := by
  induction es generalizing s with
  | nil => cases ht; exact h
  | cons e es ih =>
    have hrest : ∀ x ∈ es, x.Legal := fun x hx => hes x (.tail e hx)
    have he : e.Legal := hes e (.head es)
    cases e with
    | resp b => exact ih hrest (h.emit he) ht
    | tx f => exact ih hrest (h.emit he) ht
    | dispatch c n p =>
      obtain ⟨u, hu, ht⟩ := andThen_eq_next ht
      exact ih hrest (settled_dispatch he h hu) ht

theorem settled_deliverByte {b : Byte} {s t : State} (h : s.Settled) (ht : deliverByte b s = .next t) : t.Settled :=
  settled_perform (pendingLegal_decStep s.dec b).legal (h.withDec (inv_decStep b h.inv.dec)) ht

theorem settled_deliverBytes {bs : List Byte} {s t : State} (h : s.Settled) (ht : deliverBytes bs s = .next t) :
    t.Settled := by
  induction bs generalizing s with
  | nil => cases ht; exact h
  | cons b bs ih =>
    obtain ⟨u, hu, ht⟩ := andThen_eq_next ht
    exact ih (settled_deliverByte h hu) ht

/-- Emitting one legal event is all a row on the sink does. -/
theorem emit_of_exec_sinkRow {i : Instr} {s t : State}
    (hi : i = .ack ∨ i = .nack ∨ ∃ cmd len data, i = .encode cmd len data) (ht : exec i s = .next t) :
    ∃ e : Event, e.Legal ∧ t = s.emit e := by
  rcases hi with rfl | rfl | ⟨cmd, len, data, rfl⟩
  · cases ht
    exact ⟨.resp Config.ack, .inl rfl, rfl⟩
  · cases ht
    exact ⟨.resp Config.nack, .inr rfl, rfl⟩
  · obtain ⟨hok, rfl⟩ := runEncode_eq_next ht
    exact ⟨_, legal_frame hok, rfl⟩

@[simp] theorem decode_response (d : Decoder) (b : Byte) : decode d (.response b) = decodeResponse b := rfl

theorem decodeResponse_eq_ok {b : Byte} {i : Instr} (h : decodeResponse b = .ok i) : i = .ack ∨ i = .nack := by
  unfold decodeResponse at h
  split_ifs at h <;> cases h
  · exact .inl rfl
  · exact .inr rfl

theorem State.Settled.exec_sinkRow {i : Instr} {s t : State} (h : s.Settled)
    (hi : i = .ack ∨ i = .nack ∨ ∃ cmd len data, i = .encode cmd len data) (ht : exec i s = .next t) :
    t.Settled := by
  obtain ⟨e, he, rfl⟩ := emit_of_exec_sinkRow hi ht
  exact h.emit he

/-- A delivery that is an instruction of the present registers keeps the invariant, whatever it delivers. -/
theorem settled_exec_decode {x : Delivery} {i : Instr} {s t : State} (h : s.Settled) (hi : decode s.dec x = .ok i)
    (ht : exec i s = .next t) : t.Settled := by
  cases x with
  | byte b =>
    rw [decode_byte] at hi
    cases hi
    exact settled_deliverByte h (exec_decodeStep s b ▸ ht)
  | bytes bs =>
    rw [decode_bytes] at hi
    cases hi
    exact settled_deliverBytes h (exec_decodeBytes bs s ▸ ht)
  | response b =>
    rw [decode_response] at hi
    exact h.exec_sinkRow ((decodeResponse_eq_ok hi).imp_right .inl) ht
  | request r =>
    rw [decode_request] at hi
    cases hi
    exact h.exec_sinkRow (.inr (.inr ⟨_, _, _, rfl⟩)) ht
  | reset =>
    rw [decode_reset] at hi
    cases hi
    cases ht
    exact h.withDec inv_reset

theorem inv_deliver {x : Delivery} {s t : State} (h : s.Inv) (ht : deliver x s = .next t) : t.Inv := by
  unfold deliver at ht
  split_ifs at ht
  split at ht
  case h_1 i hi => exact (settled_exec_decode h.settled_finishFrame hi ht).inv
  case h_2 => cases ht

/-! ### Clock edges, part by part -/

section Edges

variable {pins : Pins} {s : State}

theorem inv_txEdge (h : s.Inv) : (txEdge pins s).Inv := by
  rcases txEdge_cases pins s with ⟨-, e⟩ | ⟨b, rest, htx, -, -, e⟩ <;> rw [e]
  · exact h
  · exact ⟨h.dec, h.log, by simp [h.sink, htx], h.out, h.shown⟩

/-- What is pending after a finished dispatch is the ACK. -/
theorem PendingLegal.tail_of_dispatch {c n : Byte} {p : List Byte} {es : List Event}
    (h : PendingLegal (.dispatch c n p :: es)) : es = [.resp Config.ack] := by
  cases h
  rfl

theorem inv_dispEdge (h : s.Inv) : (dispEdge pins s).Inv := by
  rcases dispEdge_cases pins s with ⟨-, e⟩ | ⟨c, n, p, es, hout, -, ⟨-, e⟩ | ⟨-, e⟩⟩ <;> rw [e]
  · exact h
  · have hes : es = [.resp Config.ack] := (hout ▸ h.out).tail_of_dispatch
    exact ⟨h.dec, h.log, h.sink, hes ▸ .response _ (.inl rfl), by simp⟩
  · exact ⟨h.dec, h.log, h.sink, h.out, fun _ => ⟨c, n, p, es, hout⟩⟩

theorem inv_encEdge {taken : Bool} (h : s.Inv) (htx : taken = true → s.port.tx = [])
    (hlen : taken = true → pins.encLen.toNat ≤ 10) : (encEdge taken pins s).Inv := by
  cases taken with
  | false => exact h
  | true =>
    have hsink : sinkOf s.log = s.sink := by simpa [htx rfl] using h.sink
    exact ⟨h.dec, legal_log_append h.log (legal_frame (ok_request pins (hlen rfl))), by simp [encEdge, hsink],
      h.out, h.shown⟩

theorem mem_of_mem_dispatchesOf {es : List Event} {e : Event} (h : e ∈ dispatchesOf es) : e ∈ es :=
  List.mem_of_mem_filter h

/-- Dispatches put no byte on the sink. -/
@[simp] theorem sinkOf_dispatchesOf (es : List Event) : sinkOf (dispatchesOf es) = [] := by
  rw [sinkOf, List.flatMap_eq_nil_iff]
  intro e he
  cases e with
  | dispatch => rfl
  | resp | tx => simp [dispatchesOf] at he

theorem inv_decEdge {taken : Bool} (h : s.Inv) (hout : taken = true → s.port.out = []) :
    (decEdge taken pins s).Inv := by
  unfold decEdge
  split_ifs with hrst htaken
  · exact h.withDec inv_reset
  · have hp := pendingLegal_decStep s.dec pins.rxData
    have hshown : s.port.dispShown ≠ true := by
      intro hd
      obtain ⟨c, n, p, rest, ho⟩ := h.shown hd
      simp [hout htaken] at ho
    refine ⟨inv_decStep _ h.dec, ?_, by simp [h.sink], hp, fun hd => absurd hd hshown⟩
    intro e he
    rcases List.mem_append.mp he with he | he
    · exact h.log e he
    · exact hp.legal e (mem_of_mem_dispatchesOf he)
  · exact h

/-- A pending response is legal, and nothing is pending behind it. -/
theorem PendingLegal.of_resp {b : Byte} {es : List Event} (h : PendingLegal (.resp b :: es)) :
    (b = Config.ack ∨ b = Config.nack) ∧ es = [] := by
  cases h with
  | response _ hb => exact ⟨hb, rfl⟩

theorem inv_respEdge (h : s.Inv) : (respEdge s).Inv := by
  rcases respEdge_cases s with ⟨b, rest, hout, htx, e⟩ | ⟨-, e⟩ <;> rw [e]
  · obtain ⟨hb, rfl⟩ := (hout ▸ h.out).of_resp
    refine ⟨h.dec, legal_log_append h.log hb, by simp [h.sink, htx], .none, fun hd => ?_⟩
    obtain ⟨c, n, p, es, ho⟩ := h.shown hd
    simp [hout] at ho
  · exact h

/-! What one part of an edge leaves for the next one. -/

theorem txEdge_tx_of_nil (h : s.port.tx = []) : (txEdge pins s).port.tx = [] := by
  rcases txEdge_cases pins s with ⟨-, e⟩ | ⟨b, rest, htx, -, -, -⟩
  · rw [e, h]
  · simp [h] at htx

@[simp] theorem txEdge_out (pins : Pins) (s : State) : (txEdge pins s).port.out = s.port.out := by
  rcases txEdge_cases pins s with ⟨-, e⟩ | ⟨_, _, -, -, -, e⟩ <;> rw [e]

@[simp] theorem dispEdge_tx (pins : Pins) (s : State) : (dispEdge pins s).port.tx = s.port.tx := by
  rcases dispEdge_cases pins s with ⟨-, e⟩ | ⟨_, _, _, _, -, -, ⟨-, e⟩ | ⟨-, e⟩⟩ <;> rw [e]

theorem dispEdge_out_of_nil (h : s.port.out = []) : (dispEdge pins s).port.out = [] := by
  rcases dispEdge_cases pins s with ⟨-, e⟩ | ⟨_, _, _, _, hout, -, -⟩
  · rw [e, h]
  · simp [h] at hout

@[simp] theorem encEdge_out (taken : Bool) (pins : Pins) (s : State) :
    (encEdge taken pins s).port.out = s.port.out := by
  cases taken <;> rfl

theorem inv_clockEdge {t : State} (h : s.Inv) (ht : clockEdge pins s = .next t) : t.Inv := by
  rcases clockEdge_cases pins s with ⟨-, -, e⟩ | ⟨-, -, -, -, e⟩ | ⟨-, hlen, e⟩ <;> rw [e] at ht <;>
    cases ht
  have hdisp : (dispEdge pins (txEdge pins s)).Inv := inv_dispEdge (inv_txEdge h)
  have henc : (encEdge (pins.encValid && encReady pins s.port) pins (dispEdge pins (txEdge pins s))).Inv := by
    refine inv_encEdge hdisp (fun hen => ?_) (fun hen => ?_) <;> rw [Bool.and_eq_true] at hen
    · rw [dispEdge_tx]
      exact txEdge_tx_of_nil (encReady_tx pins hen.2)
    · exact hlen hen.1 hen.2
  refine inv_respEdge (inv_decEdge henc fun hrx => ?_)
  obtain ⟨-, -, hfree⟩ := (rxFires_iff pins).mp hrx
  rw [encEdge_out]
  exact dispEdge_out_of_nil ((txEdge_out pins s).trans (stepPending_eq_false.mp hfree).1)

end Edges

/-! ### The obligations of the family -/

/-- Settles O53: a step takes a transaction (`inv_deliver`), a clock edge (`inv_clockEdge`), or nothing. -/
theorem stepKeepsInvariant : Obligations.StepKeepsInvariant := by
  unfold Obligations.StepKeepsInvariant
  intro s t h ht
  unfold step takeStimulus at ht
  split at ht
  case h_1 => cases ht; exact h
  case h_2 x rest _ => exact inv_deliver (h.withQueue rest) ht
  case h_3 pins rest _ => exact inv_clockEdge (h.withQueue rest) ht

/-- Settles O52: the reset row of the table of R21, with nothing emitted and nothing pending. -/
theorem resetMeetsInvariant : Obligations.ResetMeetsInvariant :=
  ⟨inv_reset, by simp [State.reset], rfl, .none, fun h => nomatch h⟩

/-- Settles O1: each register of the reset state, the buffer read at each of its ten addresses. -/
theorem resetLeavesDecoderWaiting : Obligations.ResetLeavesDecoderWaiting := by
  refine ⟨rfl, rfl, rfl, rfl, rfl, rfl, fun a ha => ?_, rfl, rfl, rfl⟩
  rw [Memory.memRead, maxPayload_eq, if_pos ha]
  rfl

/-- Settles O29: `emit` touches the log and the sink only. -/
theorem sinkRowsLeaveDecoderAlone : Obligations.SinkRowsLeaveDecoderAlone := by
  intro i s t hi ht
  obtain ⟨e, he, rfl⟩ := emit_of_exec_sinkRow hi ht
  exact ⟨rfl, rfl, rfl, rfl, e, rfl, rfl, he⟩

end Sys2Proof.Machine
end

section
/-!
PROOFS. The memory family: what a step does with the front of the queue (20_memory.md R34); what the storing rows
do to the payload buffer (R31); that no meaning leaves the buffer's bounds (R33); a run of bytes against its bytes
one a step (R40).
-/

namespace Sys2Proof.Machine

/-! ### The front of the queue -/

section Front

variable {s : State} {rest : List Stimulus}

theorem step_deliver {x : Delivery} (hq : s.queue = .deliver x :: rest) :
    step s = deliver x (s.withQueue rest) := by
  simp only [step, takeStimulus, hq]

theorem step_cycle {pins : Pins} (hq : s.queue = .cycle pins :: rest) :
    step s = clockEdge pins (s.withQueue rest) := by
  simp only [step, takeStimulus, hq]

theorem step_deliver_of_pending {x : Delivery} (hq : s.queue = .deliver x :: rest)
    (hp : s.port.stepPending = true) : step s = .refused .outputsPending := by
  rw [step_deliver hq, deliver, withQueue_port, if_pos hp]

/-- Between decoder steps a delivery runs, with any frame on the transmit port on the sink before it (log 9). -/
theorem step_of_decode {x : Delivery} {i : Instr} (hq : s.queue = .deliver x :: rest)
    (hp : s.port.stepPending = false) (hi : decode s.dec x = .ok i) :
    step s = exec i (s.finishFrame.withQueue rest) := by
  rw [step_deliver hq, deliver, withQueue_port, hp, if_neg Bool.false_ne_true, withQueue_dec, hi,
    finishFrame_withQueue]

theorem step_of_decodeError {x : Delivery} {e : DecodeError} (hq : s.queue = .deliver x :: rest)
    (hp : s.port.stepPending = false) (he : decode s.dec x = .error e) : step s = .refused (refusalOf e) := by
  rw [step_deliver hq, deliver, withQueue_port, hp, if_neg Bool.false_ne_true, withQueue_dec, he]

theorem step_byte {b : Byte} (hq : s.queue = .deliver (.byte b) :: rest) (hp : s.port.stepPending = false) :
    step s = deliverByte b (s.finishFrame.withQueue rest) :=
  (step_of_decode hq hp (decode_byte s.dec b)).trans (exec_decodeStep (s.finishFrame.withQueue rest) b)

theorem step_bytes {bs : List Byte} (hq : s.queue = .deliver (.bytes bs) :: rest)
    (hp : s.port.stepPending = false) : step s = deliverBytes bs (s.finishFrame.withQueue rest) :=
  (step_of_decode hq hp (decode_bytes s.dec bs)).trans (exec_decodeBytes bs _)

end Front

theorem decodeResponse_of_illegal {b : Byte} (hack : b ≠ 0x06#8) (hnack : b ≠ 0x15#8) :
    decodeResponse b = .error (.responseByteIllegal b) := by
  rw [decodeResponse, ack_eq, nack_eq, if_neg hack, if_neg hnack]

/-- Settles O3: clause by clause, what `step` makes of the queue's front. -/
theorem stepRunsDecodedInstruction : Obligations.StepRunsDecodedInstruction := by
  refine ⟨fun s x rest i hidle hq hi => ?_, fun s x rest i hp hq hi => step_of_decode hq hp hi,
    fun s pins rest hq => step_cycle hq, fun s x rest hp hq => step_deliver_of_pending hq hp,
    fun s b rest hack hnack hp hq => ?_⟩
  · rw [step_of_decode hq (stepPending_of_not_busy hidle) hi, finishFrame_of_tx_nil (busy_eq_false.mp hidle).2]
    rfl
  · exact step_of_decodeError hq hp ((decode_response s.dec b).trans (decodeResponse_of_illegal hack hnack))

/-! ### A delivered byte completes -/

/-- What one decoder step emits completes when the Dispatcher keeps the encoder's precondition. -/
theorem perform_pending_of_ok {es : List Event} {s : State} (hes : PendingLegal es) (hok : s.nextRepliesOk) :
    ∃ t, perform es s = .next t := by
  cases hes with
  | none => exact ⟨s, rfl⟩
  | response b => exact ⟨s.emit (.resp b), rfl⟩
  | dispatchFirst c n p =>
    rw [perform_dispatch, dispatch_of_ok c n p hok]
    exact ⟨_, rfl⟩

/-- Settles O23: the byte's row is the whole decoder step, whose events complete. -/
theorem everyDeliveredByteIsTaken : Obligations.EveryDeliveredByteIsTaken := by
  intro s b rest hp hq hok
  obtain ⟨t, ht⟩ : ∃ t, deliverByte b (s.finishFrame.withQueue rest) = .next t :=
    perform_pending_of_ok (pendingLegal_decStep s.dec b) hok
  obtain ⟨hdec, hqueue, -⟩ := deliverByte_next b ht
  exact ⟨t, (step_byte hq hp).trans ht, hqueue, hdec⟩

/-! ### The storing rows -/

theorem rowSelected_rpMore {p : Byte} {d : Decoder} (h : rowSelected (.rpMore p) d = true) :
    d.state = .readPayload ∧ d.malformed = false := by
  simp only [rowSelected, Bool.and_eq_true, beq_iff_eq, Bool.not_eq_true'] at h
  exact h.1

theorem rowSelected_rpLast {p : Byte} {d : Decoder} (h : rowSelected (.rpLast p) d = true) :
    d.state = .readPayload ∧ d.malformed = false := by
  simp only [rowSelected, Bool.and_eq_true, beq_iff_eq, Bool.not_eq_true'] at h
  exact h.1

/-- A storing row is refused, or stores the byte at `index`, which is inside the bounds (R31, R33). -/
theorem storingRow_eq_next {i : Instr} {s t : State} {p : Byte} {next : Phase}
    (hi : rowSelected i s.dec = true → s.dec.state = .readPayload ∧ s.dec.malformed = false)
    (ht : whenSelected i s (storePayloadThen p next) = .next t) :
    s.dec.payloadLength.toNat ≤ 10 ∧ s.dec.index.toNat < s.dec.payloadLength.toNat ∧
      t.dec.payload = Memory.writeByte s.dec.payload s.dec.index.toNat p := by
  rcases whenSelected_cases i s (storePayloadThen p next) with ⟨hsel, e⟩ | ⟨-, e⟩ <;> rw [e] at ht
  · obtain ⟨hlen, hidx⟩ := readPayload_bounds (hi hsel).1 (hi hsel).2
    rw [storePayloadThen_of_lt p next (by omega)] at ht
    cases ht
    exact ⟨hlen, hidx, rfl⟩
  · cases ht

theorem memRead_writeByte {m : Memory} {a : Nat} (v : Byte) (x : Nat) (hm : Memory.wf m = true) (ha : a < 10) :
    Memory.memRead (Memory.writeByte m a v) x = if x = a then some v else Memory.memRead m x := by
  rw [Memory.memRead, Memory.memRead, readByte_writeByte a v x hm, maxPayload_eq]
  by_cases hx : x = a
  · rw [if_pos hx, if_pos hx, if_pos (hx ▸ ha)]
  · rw [if_neg hx, if_neg hx]

/-- Settles O27: either row's write, read back at its own address and at every other. -/
theorem storingRowsFrame : Obligations.StoringRowsFrame := by
  intro s t p hwf ht
  obtain ⟨hlen, hidx, hpay⟩ := ht.elim (storingRow_eq_next rowSelected_rpMore) (storingRow_eq_next rowSelected_rpLast)
  have hread := fun x => memRead_writeByte p x hwf (hidx.trans_le hlen)
  rw [hpay]
  exact ⟨hidx, hlen, fun a ha => by rw [hread, if_neg ha], by rw [hread, if_pos rfl]⟩

/-! ### No fault, and the buffer inside its bounds -/

/-- No fault, and a next state keeps the payload buffer canonical. -/
def BufferSafe (s : State) (r : Result) : Prop :=
  (∀ f, r ≠ .fault f) ∧ ∀ t, r = .next t → Memory.wf s.dec.payload = true → Memory.wf t.dec.payload = true

theorem bufferSafe_refused (s : State) (x : Refusal) : BufferSafe s (.refused x) :=
  ⟨nofun, nofun⟩

theorem bufferSafe_next {s t : State} (h : Memory.wf s.dec.payload = true → Memory.wf t.dec.payload = true) :
    BufferSafe s (.next t) :=
  ⟨nofun, fun _ e => by cases e; exact h⟩

theorem bufferSafe_andThen {s : State} {r : Result} {f : State → Result} (hr : BufferSafe s r)
    (hf : ∀ t, BufferSafe t (f t)) : BufferSafe s (andThen r f) := by
  cases r with
  | next t => exact ⟨(hf t).1, fun u hu hs => (hf t).2 u hu (hr.2 t rfl hs)⟩
  | fault x => exact absurd rfl (hr.1 x)
  | refused x => exact bufferSafe_refused s x

theorem bufferSafe_whenSelected {i : Instr} {s : State} {effect : State → Result}
    (h : rowSelected i s.dec = true → BufferSafe s (effect s)) : BufferSafe s (whenSelected i s effect) := by
  rcases whenSelected_cases i s effect with ⟨hsel, e⟩ | ⟨-, e⟩ <;> rw [e]
  · exact h hsel
  · exact bufferSafe_refused s _

/-- The store of a row selected in `ReadPayload` has its address inside the buffer (R33). -/
theorem bufferSafe_storePayloadThen {s : State} (p : Byte) (next : Phase)
    (h : s.dec.state = .readPayload ∧ s.dec.malformed = false) : BufferSafe s (storePayloadThen p next s) := by
  obtain ⟨hlen, hidx⟩ := readPayload_bounds h.1 h.2
  have haddr : s.dec.index.toNat < 10 := hidx.trans_le hlen
  rw [storePayloadThen_of_lt p next haddr]
  exact bufferSafe_next fun hs => wf_writeByte p hs haddr

theorem bufferSafe_runEncode (r : EncodeRequest) (s : State) : BufferSafe s (runEncode r s) := by
  cases hr : r.ok with
  | true => rw [runEncode_of_ok hr]; exact bufferSafe_next id
  | false => rcases runEncode_of_not_ok hr s with e | e <;> rw [e] <;> exact bufferSafe_refused s _

theorem bufferSafe_perform (es : List Event) (s : State) : BufferSafe s (perform es s) := by
  rcases perform_cases es s with ⟨t, e, hdec, -, -⟩ | e | e <;> rw [e]
  · exact bufferSafe_next fun hs => hdec ▸ hs
  · exact bufferSafe_refused s _
  · exact bufferSafe_refused s _

theorem bufferSafe_dispatch (c n : Byte) (p : List Byte) (s : State) : BufferSafe s (dispatch c n p s) := by
  rcases dispatch_cases c n p s with ⟨-, e⟩ | ⟨-, e | e⟩ <;> rw [e]
  · exact bufferSafe_next id
  · exact bufferSafe_refused s _
  · exact bufferSafe_refused s _

theorem bufferSafe_deliverByte (b : Byte) (s : State) : BufferSafe s (deliverByte b s) := by
  have h := bufferSafe_perform (decStep s.dec b).2 (s.withDec (decStep s.dec b).1)
  exact ⟨h.1, fun t ht hs => h.2 t ht (wf_decStep b hs)⟩

theorem bufferSafe_deliverBytes (bs : List Byte) (s : State) : BufferSafe s (deliverBytes bs s) := by
  induction bs generalizing s with
  | nil => exact bufferSafe_next id
  | cons b bs ih => exact bufferSafe_andThen (bufferSafe_deliverByte b s) ih

theorem bufferSafe_exec (i : Instr) (s : State) : BufferSafe s (exec i s) := by
  cases i with
  | wsStart | wsSkip | rcCmd | rlZero | rlLen =>
    dsimp only [exec, execWsStart, execWsSkip, execRcCmd, execRlZero, execRlLen]
    exact bufferSafe_whenSelected fun _ => bufferSafe_next id
  | rpMore p => exact bufferSafe_whenSelected fun h => bufferSafe_storePayloadThen p _ (rowSelected_rpMore h)
  | rpLast p => exact bufferSafe_whenSelected fun h => bufferSafe_storePayloadThen p _ (rowSelected_rpLast h)
  | rlOver | rkBad =>
    dsimp only [exec, execRlOver, execRkBad, raise_eq]
    exact bufferSafe_whenSelected fun _ => bufferSafe_next fun _ => rfl
  | rkOk k =>
    rw [exec, execRkOk]
    exact bufferSafe_whenSelected fun _ =>
      bufferSafe_andThen (bufferSafe_dispatch _ _ _ s) fun _ => bufferSafe_next fun _ => rfl
  | xxResetState5 | xxResetState67 | xxResetMalformed =>
    exact bufferSafe_whenSelected fun _ => bufferSafe_next fun _ => rfl
  | frameL0 | frameL1 | frameL2 | frameL3 | frameL4 | frameL5 | frameL6 | frameL7 | frameL8 | frameL9 | frameL10
  | raw => exact bufferSafe_deliverBytes _ s
  | ack | nack => exact bufferSafe_next id
  | encode cmd len data => exact bufferSafe_runEncode ⟨cmd, len, data⟩ s
  | reset => exact bufferSafe_next fun _ => rfl
  | frame c p =>
    rw [exec, execFrame]
    split_ifs
    · exact bufferSafe_deliverBytes _ s
    · exact bufferSafe_refused s _
  | badframe c p k =>
    rw [exec, execBadframe]
    split_ifs
    · exact bufferSafe_deliverBytes _ s
    · exact bufferSafe_refused s _

/-! The parts of a clock edge other than the decoder's leave the registers alone. -/

@[simp] theorem txEdge_dec (pins : Pins) (s : State) : (txEdge pins s).dec = s.dec := by
  rcases txEdge_cases pins s with ⟨-, e⟩ | ⟨_, _, -, -, -, e⟩ <;> rw [e]

@[simp] theorem dispEdge_dec (pins : Pins) (s : State) : (dispEdge pins s).dec = s.dec := by
  rcases dispEdge_cases pins s with ⟨-, e⟩ | ⟨_, _, _, _, -, -, ⟨-, e⟩ | ⟨-, e⟩⟩ <;> rw [e]

@[simp] theorem encEdge_dec (taken : Bool) (pins : Pins) (s : State) : (encEdge taken pins s).dec = s.dec := by
  cases taken <;> rfl

@[simp] theorem respEdge_dec (s : State) : (respEdge s).dec = s.dec := by
  rcases respEdge_cases s with ⟨_, _, -, -, e⟩ | ⟨-, e⟩ <;> rw [e]

theorem wf_decEdge (taken : Bool) (pins : Pins) {s : State} (h : Memory.wf s.dec.payload = true) :
    Memory.wf (decEdge taken pins s).dec.payload = true := by
  unfold decEdge
  split_ifs
  · rfl
  · exact wf_decStep pins.rxData h
  · exact h

theorem bufferSafe_clockEdge (pins : Pins) (s : State) : BufferSafe s (clockEdge pins s) := by
  rcases clockEdge_cases pins s with ⟨-, -, e⟩ | ⟨-, -, -, -, e⟩ | ⟨-, -, e⟩ <;> rw [e]
  · exact bufferSafe_refused s _
  · exact bufferSafe_refused s _
  · refine bufferSafe_next fun hs => ?_
    rw [respEdge_dec]
    exact wf_decEdge _ pins (by simpa using hs)

theorem bufferSafe_deliver (x : Delivery) (s : State) : BufferSafe s (deliver x s) := by
  unfold deliver
  split_ifs
  · exact bufferSafe_refused s _
  · split
    · exact bufferSafe_exec _ s.finishFrame
    · exact bufferSafe_refused s _

theorem bufferSafe_step (s : State) : BufferSafe s (step s) := by
  cases hq : s.queue with
  | nil =>
    have hstep : step s = .next s := by simp only [step, takeStimulus, hq]
    rw [hstep]
    exact bufferSafe_next id
  | cons x rest =>
    cases x with
    | deliver x => exact step_deliver hq ▸ bufferSafe_deliver x (s.withQueue rest)
    | cycle pins => exact step_cycle hq ▸ bufferSafe_clockEdge pins (s.withQueue rest)

/-- Settles O54: the two halves of `BufferSafe`, of a step and of an instruction. -/
theorem noStepFaults : Obligations.NoStepFaults :=
  ⟨fun s => (bufferSafe_step s).1, fun i s => (bufferSafe_exec i s).1,
    fun s t hs ht => (bufferSafe_step s).2 t ht hs, fun i s t hs ht => (bufferSafe_exec i s).2 t ht hs⟩

/-! ### A run of bytes and its bytes one a step -/

section Queue

variable (q : List Stimulus)

@[simp] theorem withQueue_withQueue (q' : List Stimulus) (s : State) :
    (s.withQueue q').withQueue q = s.withQueue q := rfl

theorem runEncode_withQueue (r : EncodeRequest) (s : State) :
    runEncode r (s.withQueue q) = andThen (runEncode r s) fun t => .next (t.withQueue q) := by
  unfold runEncode
  split_ifs <;> rfl

theorem runEncodes_withQueue (rs : List EncodeRequest) (s : State) :
    runEncodes rs (s.withQueue q) = andThen (runEncodes rs s) fun t => .next (t.withQueue q) := by
  induction rs generalizing s with
  | nil => rfl
  | cons r rs ih => simp only [runEncodes, runEncode_withQueue, andThen_assoc, andThen_next, ih]

theorem dispatch_withQueue (c n : Byte) (p : List Byte) (s : State) :
    dispatch c n p (s.withQueue q) = andThen (dispatch c n p s) fun t => .next (t.withQueue q) :=
  runEncodes_withQueue q (s.replies.headD []) ((s.emit (.dispatch c n p)).withReplies s.replies.tail)

theorem perform_withQueue (es : List Event) (s : State) :
    perform es (s.withQueue q) = andThen (perform es s) fun t => .next (t.withQueue q) := by
  induction es generalizing s with
  | nil => rfl
  | cons e es ih =>
    cases e with
    | resp b => exact ih (s.emit (.resp b))
    | tx f => exact ih (s.emit (.tx f))
    | dispatch c n p => simp only [perform, dispatch_withQueue, andThen_assoc, andThen_next, ih]

/-- Delivering a byte does not look at what is queued behind it. -/
theorem deliverByte_withQueue (b : Byte) (s : State) :
    deliverByte b (s.withQueue q) = andThen (deliverByte b s) fun t => .next (t.withQueue q) :=
  perform_withQueue q (decStep s.dec b).2 (s.withDec (decStep s.dec b).1)

end Queue

/-- Only the next states of the first part matter to a sequence. -/
theorem andThen_congr {r : Result} {f g : State → Result} (h : ∀ t, r = .next t → f t = g t) :
    andThen r f = andThen r g := by
  cases r with
  | next t => exact h t rfl
  | fault | refused => rfl

/-- Bytes queued one a step run as `deliverBytes` does; the first of them finishes a frame in transmission. -/
theorem steps_map_byte (bs : List Byte) (rest : List Stimulus) {s : State} (hp : s.port.stepPending = false)
    (h : s.port.tx = [] ∨ bs ≠ []) :
    steps bs.length (s.withQueue (bs.map (fun b => Stimulus.deliver (.byte b)) ++ rest)) =
      deliverBytes bs (s.finishFrame.withQueue rest) := by
  induction bs generalizing s with
  | nil =>
    rw [finishFrame_of_tx_nil (h.resolve_right (absurd rfl))]
    rfl
  | cons b bs ih =>
    rw [List.length_cons, List.map_cons, List.cons_append, steps_succ, step_byte (s := s.withQueue _) rfl hp,
      finishFrame_withQueue, withQueue_withQueue, deliverByte_withQueue, deliverBytes, deliverByte_withQueue,
      andThen_assoc, andThen_assoc]
    refine andThen_congr fun t ht => ?_
    obtain ⟨-, -, hport⟩ := deliverByte_next b ht
    have htx : t.port.tx = [] := by rw [hport, finishFrame_tx]
    have hfree : t.port.stepPending = false :=
      stepPending_eq_false.mpr ⟨by rw [hport]; exact (stepPending_eq_false.mp hp).1, fun _ => htx⟩
    rw [andThen_next, andThen_next, ih hfree (.inl htx), finishFrame_of_tx_nil htx]

/-- Settles O37: both sides are `deliverBytes` from the state with its frame finished. -/
theorem runOfBytesIsByteSteps : Obligations.RunOfBytesIsByteSteps := by
  intro s bs rest hp h
  have hrun : step (s.withQueue (.deliver (.bytes bs) :: rest)) = deliverBytes bs (s.finishFrame.withQueue rest) :=
    step_bytes rfl hp
  exact hrun.trans (steps_map_byte bs rest hp h).symm

end Sys2Proof.Machine
end

section
/-!
PROOFS. A dispatch through the ports against the transaction (20_memory.md R41, 45_interfaces.md R126 to R128):
one lemma per edge of the schedule, then the edges of one request, of any number of them, and of the whole dispatch.
-/

namespace Sys2Proof.Machine

/-! ### Runs of clock edges -/

theorem steps_add (m n : Nat) (s : State) : steps (m + n) s = andThen (steps m s) (steps n) := by
  induction m generalizing s with
  | zero => rw [Nat.zero_add, steps_zero, andThen_next]
  | succ m ih =>
    rw [Nat.add_right_comm, steps_succ, steps_succ, andThen_assoc]
    exact andThen_congr fun t _ => ih t

section Queue

variable (pins : Pins) (q : List Stimulus) (s : State)

theorem txEdge_withQueue : txEdge pins (s.withQueue q) = (txEdge pins s).withQueue q := by
  rw [txEdge, txEdge, withQueue_port]
  split
  · split_ifs <;> rfl
  · rfl

theorem dispEdge_withQueue : dispEdge pins (s.withQueue q) = (dispEdge pins s).withQueue q := by
  rw [dispEdge, dispEdge, withQueue_port]
  split
  · split_ifs <;> rfl
  · rfl

theorem encEdge_withQueue (taken : Bool) :
    encEdge taken pins (s.withQueue q) = (encEdge taken pins s).withQueue q := by
  cases taken <;> rfl

theorem decEdge_withQueue (taken : Bool) :
    decEdge taken pins (s.withQueue q) = (decEdge taken pins s).withQueue q := by
  unfold decEdge
  split_ifs <;> rfl

theorem respEdge_withQueue : respEdge (s.withQueue q) = (respEdge s).withQueue q := by
  rw [respEdge, respEdge, withQueue_port]
  split <;> rfl

/-- A clock edge does not look at what is queued behind it. -/
theorem clockEdge_withQueue :
    clockEdge pins (s.withQueue q) = andThen (clockEdge pins s) fun t => .next (t.withQueue q) := by
  rw [clockEdge, clockEdge, txEdge_withQueue, dispEdge_withQueue, encEdge_withQueue, decEdge_withQueue,
    respEdge_withQueue, withQueue_port]
  split_ifs <;> rfl

end Queue

theorem steps_cycle {pins : Pins} {s t : State} (k : Nat) (q : List Stimulus) (h : clockEdge pins s = .next t) :
    steps (k + 1) (s.withQueue (.cycle pins :: q)) = steps k (t.withQueue q) := by
  have hstep : step (s.withQueue (.cycle pins :: q)) = clockEdge pins (s.withQueue q) := step_cycle rfl
  rw [steps_succ, hstep, clockEdge_withQueue, h, andThen_next, andThen_next]

/-! ### The parts of an edge where they have nothing to do -/

theorem txEdge_of_tx_nil (pins : Pins) {s : State} (h : s.port.tx = []) : txEdge pins s = s := by
  rcases txEdge_cases pins s with ⟨-, e⟩ | ⟨b, rest, htx, -, -, -⟩
  · exact e
  · simp [h] at htx

theorem dispEdge_of_out_nil (pins : Pins) {s : State} (h : s.port.out = []) : dispEdge pins s = s := by
  rcases dispEdge_cases pins s with ⟨-, e⟩ | ⟨_, _, _, _, hout, -, -⟩
  · exact e
  · simp [h] at hout

theorem respEdge_of_out_nil {s : State} (h : s.port.out = []) : respEdge s = s := by
  rcases respEdge_cases s with ⟨_, _, hout, -, -⟩ | ⟨-, e⟩
  · simp [h] at hout
  · exact e

/-- A response waits behind the dispatch of its step. -/
theorem respEdge_of_dispatch {s : State} {c n : Byte} {p : List Byte} {es : List Event}
    (h : s.port.out = .dispatch c n p :: es) : respEdge s = s := by
  rcases respEdge_cases s with ⟨_, _, hout, -, -⟩ | ⟨-, e⟩
  · simp [h] at hout
  · exact e

/-- A raised dispatch stays as it is until `disp_done`. -/
theorem dispEdge_of_shown {pins : Pins} {s : State} (hdone : pins.dispDone = false)
    (hshown : s.port.dispShown = true) : dispEdge pins s = s := by
  rcases dispEdge_cases pins s with ⟨-, e⟩ | ⟨_, _, _, _, -, -, ⟨hd, -⟩ | ⟨-, e⟩⟩
  · exact e
  · simp [hdone] at hd
  · rw [e, ← hshown]

/-! ### The edges of the schedule -/

/-- Without reset, and with every presented request inside the encoder's domain, an edge completes. -/
theorem clockEdge_of_ok {pins : Pins} (s : State) (hrst : pins.rst = false)
    (hlen : pins.encValid = true → pins.encLen.toNat ≤ 10) :
    clockEdge pins s =
      .next (respEdge (decEdge (rxFires pins s.port) pins
        (encEdge (pins.encValid && encReady pins s.port) pins (dispEdge pins (txEdge pins s))))) := by
  rcases clockEdge_cases pins s with ⟨h, -, -⟩ | ⟨-, henc, -, hover, -⟩ | ⟨-, -, e⟩
  · simp [hrst] at h
  · have := hlen henc
    omega
  · exact e

/-- An edge that neither resets, receives nor requests is its transmit, dispatch and response parts. -/
theorem clockEdge_of_outputs {pins : Pins} (s : State) (hrst : pins.rst = false) (hrx : pins.rxValid = false)
    (henc : pins.encValid = false) : clockEdge pins s = .next (respEdge (dispEdge pins (txEdge pins s))) := by
  rw [clockEdge_of_ok s hrst (by simp [henc])]
  simp [decEdge, rxFires, hrst, hrx, henc]

/-- A byte taken at the receive port: its step's dispatch is emitted, its outputs are pending. -/
def State.received (s : State) (b : Byte) : State :=
  { s with
    dec := (decStep s.dec b).1
    log := s.log ++ dispatchesOf (decStep s.dec b).2
    port := { s.port with out := (decStep s.dec b).2 } }

theorem clockEdge_receive {s : State} {b c n : Byte} {p : List Byte} {es : List Event} (hidle : s.port.busy = false)
    (hdec : (decStep s.dec b).2 = .dispatch c n p :: es) :
    clockEdge (Pins.receive b) s = .next (s.received b) := by
  obtain ⟨hout, htx⟩ := busy_eq_false.mp hidle
  have hfires : rxFires (Pins.receive b) s.port = true :=
    (rxFires_iff _).mpr ⟨rfl, rfl, stepPending_of_not_busy hidle⟩
  rw [clockEdge_of_ok s rfl fun h => absurd h Bool.false_ne_true, txEdge_of_tx_nil _ htx,
    dispEdge_of_out_nil _ hout, hfires]
  exact congrArg Host.Outcome.next (respEdge_of_dispatch (s := s.received b) hdec)

/-- The request a command, a length and a payload bus make at the encoder port. -/
def busRequest (r : Byte × Byte × BitVec 80) : EncodeRequest := ⟨r.1, r.2.1, busBytes r.2.2⟩

/-- A request granted during a dispatch: its frame is on the transmit port (R128). -/
def State.granted (s : State) (r : EncodeRequest) : State :=
  { s with
    log := s.log ++ [.tx r.frame]
    port := { s.port with tx := r.frame, txOfStep := false, dispShown := true } }

section Request

variable {s : State} {c n : Byte} {p : List Byte} {es : List Event} {r : Byte × Byte × BitVec 80}

theorem dispSignal_encodeInDispatch (hout : s.port.out = .dispatch c n p :: es) :
    dispSignal (Pins.encodeInDispatch r.1 r.2.1 r.2.2) s.port = some (c, n, busOf p) := by
  simp [dispSignal, hout, Pins.encodeInDispatch]

theorem encReady_encodeInDispatch (htx : s.port.tx = []) (hout : s.port.out = .dispatch c n p :: es) :
    encReady (Pins.encodeInDispatch r.1 r.2.1 r.2.2) s.port = true :=
  (encReady_iff _).mpr ⟨htx, .inr (by simp [dispSignal_encodeInDispatch hout]), rfl, .inl rfl⟩

theorem dispEdge_encodeInDispatch (hout : s.port.out = .dispatch c n p :: es) :
    dispEdge (Pins.encodeInDispatch r.1 r.2.1 r.2.2) s = { s with port := { s.port with dispShown := true } } := by
  rw [dispEdge, dispSignal_encodeInDispatch hout]
  rfl

theorem clockEdge_encodeInDispatch (htx : s.port.tx = []) (hout : s.port.out = .dispatch c n p :: es)
    (hlen : r.2.1.toNat ≤ 10) :
    clockEdge (Pins.encodeInDispatch r.1 r.2.1 r.2.2) s = .next (s.granted (busRequest r)) := by
  rw [clockEdge_of_ok s rfl fun _ => hlen, txEdge_of_tx_nil _ htx, dispEdge_encodeInDispatch hout,
    encReady_encodeInDispatch htx hout]
  exact congrArg Host.Outcome.next (respEdge_of_dispatch (s := s.granted (busRequest r)) hout)

end Request

/-- A dispatch that is done: its response is emitted and taken up by the transmit port in the same edge. -/
def State.answered (s : State) (b : Byte) : State :=
  { s with log := s.log ++ [.resp b], port := { tx := [b], txOfStep := true, out := [], dispShown := false } }

theorem clockEdge_dispatchDone {s : State} {c n b : Byte} {p : List Byte} (htx : s.port.tx = [])
    (hout : s.port.out = [.dispatch c n p, .resp b]) : clockEdge Pins.dispatchDone s = .next (s.answered b) := by
  have hdone : dispEdge Pins.dispatchDone s =
      { s with port := { s.port with out := [.resp b], dispShown := false } } := by
    simp [dispEdge, dispSignal, hout, Pins.dispatchDone]
  rw [clockEdge_of_outputs s rfl rfl rfl, txEdge_of_tx_nil _ htx, hdone, respEdge]
  simp only [htx, State.answered]

/-- Nothing is pending, or a dispatch that has been raised: edges that only transmit leave that as it is. -/
def Port.Steady (p : Port) : Prop :=
  p.out = [] ∨ p.dispShown = true ∧ ∃ c n bs es, p.out = .dispatch c n bs :: es

theorem dispEdge_transmit_of_steady {s : State} (h : s.port.Steady) : dispEdge Pins.transmit s = s := by
  rcases h with hout | ⟨hshown, -⟩
  · exact dispEdge_of_out_nil _ hout
  · exact dispEdge_of_shown rfl hshown

theorem respEdge_of_steady {s : State} (h : s.port.Steady) : respEdge s = s := by
  rcases h with hout | ⟨-, _, _, _, _, hout⟩
  · exact respEdge_of_out_nil hout
  · exact respEdge_of_dispatch hout

/-- The sink takes the front of the sequence on the transmit port. -/
def State.sent (s : State) (b : Byte) (rest : List Byte) : State :=
  { s with sink := s.sink ++ [b], port := { s.port with tx := rest } }

theorem clockEdge_transmit {s : State} {b : Byte} {bs : List Byte} (hsteady : s.port.Steady)
    (htx : s.port.tx = b :: bs) : clockEdge Pins.transmit s = .next (s.sent b bs) := by
  have htaken : txEdge Pins.transmit s = s.sent b bs := by
    simp [txEdge, txSignal, htx, Pins.transmit, State.sent]
  have hsteady' : (s.sent b bs).port.Steady := hsteady
  rw [clockEdge_of_outputs s rfl rfl rfl, htaken, dispEdge_transmit_of_steady hsteady', respEdge_of_steady hsteady']

/-- A sequence transmitted byte by byte is the sequence taken whole. -/
theorem steps_transmit {f : List Byte} (q : List Stimulus) {s : State} (hsteady : s.port.Steady)
    (htx : s.port.tx = f) :
    steps f.length (s.withQueue (List.replicate f.length (.cycle Pins.transmit) ++ q)) =
      .next (s.finishFrame.withQueue q) := by
  induction f generalizing s with
  | nil =>
    rw [finishFrame_of_tx_nil htx]
    rfl
  | cons b f ih =>
    have hwhole : (s.sent b f).finishFrame = s.finishFrame := by simp [State.sent, State.finishFrame, htx]
    rw [List.length_cons, List.replicate_succ, List.cons_append,
      steps_cycle f.length _ (clockEdge_transmit hsteady htx), ← hwhole]
    exact ih (s := s.sent b f) hsteady rfl

/-! ### The Dispatcher's requests -/

/-- The clock edges that make a request and transmit its frame. -/
def requestCycles (r : Byte × Byte × BitVec 80) : List Stimulus :=
  .cycle (Pins.encodeInDispatch r.1 r.2.1 r.2.2) :: List.replicate (4 + r.2.1.toNat) (.cycle Pins.transmit)

section Requests

variable {r : Byte × Byte × BitVec 80} {reqs : List (Byte × Byte × BitVec 80)}

theorem ok_busRequest (h : r.2.1.toNat ≤ 10) : (busRequest r).ok = true :=
  (ok_iff _).mpr ⟨h, by rw [busRequest, length_busBytes]; exact h⟩

theorem length_frame_busRequest (h : r.2.1.toNat ≤ 10) : (busRequest r).frame.length = 4 + r.2.1.toNat := by
  simp [EncodeRequest.frame, EncodeRequest.payload, encodeFrame, frameBytes, busRequest]
  omega

/-- The port of a state in a dispatch, with one more frame transmitted. -/
def Port.frameSent (p : Port) : Port := { tx := [], txOfStep := false, out := p.out, dispShown := true }

theorem steps_requestCycles {s : State} {c n : Byte} {p : List Byte} {es : List Event} (q : List Stimulus)
    (hlen : r.2.1.toNat ≤ 10) (htx : s.port.tx = []) (hout : s.port.out = .dispatch c n p :: es) :
    steps (5 + r.2.1.toNat) (s.withQueue (requestCycles r ++ q)) =
      .next (((s.emit (.tx (busRequest r).frame)).withPort s.port.frameSent).withQueue q) := by
  rw [show 5 + r.2.1.toNat = (busRequest r).frame.length + 1 by rw [length_frame_busRequest hlen]; omega,
    requestCycles, ← length_frame_busRequest hlen, List.cons_append,
    steps_cycle _ _ (clockEdge_encodeInDispatch htx hout hlen)]
  exact steps_transmit q (s := s.granted (busRequest r)) (.inr ⟨rfl, c, n, p, es, hout⟩) rfl

/-- Any number of requests during a dispatch: their frames emitted in order, the dispatch still pending. -/
theorem steps_requests {s : State} {c n : Byte} {p : List Byte} {es : List Event} (q : List Stimulus)
    (hlen : ∀ r ∈ reqs, r.2.1.toNat ≤ 10) (htx : s.port.tx = []) (hout : s.port.out = .dispatch c n p :: es) :
    ∃ port : Port, port.tx = [] ∧ port.out = .dispatch c n p :: es ∧
      steps (reqs.map fun r => 5 + r.2.1.toNat).sum (s.withQueue (reqs.flatMap requestCycles ++ q)) =
        .next (((afterFrames (reqs.map busRequest) s).withPort port).withQueue q) := by
  induction reqs generalizing s with
  | nil => exact ⟨s.port, htx, hout, by rw [List.map_nil, List.map_nil, afterFrames_nil]; rfl⟩
  | cons r reqs ih =>
    obtain ⟨port, hptx, hpout, hrun⟩ := ih (s := (s.emit (.tx (busRequest r).frame)).withPort s.port.frameSent)
      (fun x hx => hlen x (.tail r hx)) rfl hout
    refine ⟨port, hptx, hpout, ?_⟩
    rw [List.map_cons, List.sum_cons, steps_add, List.flatMap_cons, List.append_assoc,
      steps_requestCycles _ (hlen r (.head reqs)) htx hout, andThen_next, hrun, List.map_cons, afterFrames_cons]
    rfl

end Requests

/-! ### The whole dispatch -/

/-- RK.OK is selected only where the byte is the checksum of registers that are not malformed (R74). -/
theorem decStep_of_rkOk {d : Decoder} {b : Byte} (h : decodeStep d b = .rkOk b) :
    decStep d b = (Decoder.reset, [.dispatch d.commandId d.payloadLength d.payloadInUse, .resp 0x06#8]) := by
  have hsel := h ▸ rowSelected_decodeStep d b
  simp only [rowSelected, Bool.and_eq_true, beq_iff_eq, Bool.not_eq_true'] at hsel
  obtain ⟨⟨hs, hm⟩, hb⟩ := hsel
  rw [decStep_readChecksum b hs (readChecksum_bound hs hm), if_pos hb]

/-- What a dispatch and its ACK leave, with the frames of `rs` made during it. -/
structure DispatchDone (s t : State) (rs : List EncodeRequest) (rest : List Stimulus) : Prop where
  dec : t.dec = Decoder.reset
  sink : t.sink = s.sink ++ framesBytes rs ++ [0x06#8]
  log : t.log =
    s.log ++ .dispatch s.dec.commandId s.dec.payloadLength s.dec.payloadInUse :: framesEvents rs ++ [.resp 0x06#8]
  queue : t.queue = rest
  port : t.port.busy = false

section Dispatch

variable {s : State} {b : Byte} {reqs : List (Byte × Byte × BitVec 80)} (rest : List Stimulus)

/-- The end of a dispatch: its response is taken up and transmitted. -/
theorem steps_dispatchDone {c n : Byte} {p : List Byte} (htx : s.port.tx = [])
    (hout : s.port.out = [.dispatch c n p, .resp b]) :
    steps 2 (s.withQueue (.cycle Pins.dispatchDone :: .cycle Pins.transmit :: rest)) =
      .next ((s.answered b).finishFrame.withQueue rest) := by
  rw [steps_cycle 1 _ (clockEdge_dispatchDone htx hout)]
  exact steps_transmit rest (s := s.answered b) (.inl rfl) rfl

theorem dispatchDone_ports (hidle : s.port.busy = false) (hrow : decodeStep s.dec b = .rkOk b)
    (hlen : ∀ r ∈ reqs, r.2.1.toNat ≤ 10) :
    ∃ t, steps (3 + (reqs.map fun r => 5 + r.2.1.toNat).sum)
        (s.withQueue (.cycle (Pins.receive b) :: (reqs.flatMap requestCycles ++
          .cycle Pins.dispatchDone :: .cycle Pins.transmit :: rest))) = .next t ∧
      DispatchDone s t (reqs.map busRequest) rest := by
  have hdec := decStep_of_rkOk hrow
  have hevents := congrArg Prod.snd hdec
  have hlog : (s.received b).log = s.log ++ [.dispatch s.dec.commandId s.dec.payloadLength s.dec.payloadInUse] := by
    rw [State.received, hevents]
    rfl
  obtain ⟨port, htx, hout, hrun⟩ := steps_requests (s := s.received b)
    (.cycle Pins.dispatchDone :: .cycle Pins.transmit :: rest) hlen (busy_eq_false.mp hidle).2 hevents
  refine ⟨(((afterFrames (reqs.map busRequest) (s.received b)).withPort port).answered 0x06#8).finishFrame.withQueue
    rest, ?_, congrArg Prod.fst hdec, rfl, ?_, rfl, rfl⟩
  · rw [Nat.add_comm, ← Nat.add_assoc _ 2 1, steps_cycle _ _ (clockEdge_receive hidle hevents), steps_add, hrun,
      andThen_next]
    exact steps_dispatchDone rest htx hout
  · simp [State.answered, afterFrames, hlog]

/-- A matching checksum byte as a transaction: the dispatch, its frames, the ACK (R74). -/
theorem deliverByte_of_rkOk (hrow : decodeStep s.dec b = .rkOk b) (hok : s.nextRepliesOk) :
    deliverByte b s =
      .next ((afterDispatch s.dec.commandId s.dec.payloadLength s.dec.payloadInUse
        (s.withDec Decoder.reset)).emit (.resp 0x06#8)) := by
  rw [deliverByte, decStep_of_rkOk hrow, perform_dispatch,
    dispatch_of_ok _ _ _ (s := s.withDec Decoder.reset) hok, andThen_next]

theorem dispatchDone_transaction {rs : List EncodeRequest} (hidle : s.port.busy = false)
    (hrow : decodeStep s.dec b = .rkOk b) (hok : ∀ r ∈ rs, r.ok = true) :
    ∃ u, step ((s.withReplies [rs]).withQueue (.deliver (.byte b) :: rest)) = .next u ∧
      DispatchDone s u rs rest := by
  obtain ⟨hout, htx⟩ := busy_eq_false.mp hidle
  have hstep := (step_byte (s := (s.withReplies [rs]).withQueue (.deliver (.byte b) :: rest)) rfl
    (stepPending_of_not_busy hidle)).trans (deliverByte_of_rkOk hrow hok)
  refine ⟨_, hstep, rfl, ?_, ?_, rfl, busy_eq_false.mpr ⟨hout, rfl⟩⟩
  · simp [htx]
  · simp

end Dispatch

/-- Settles O60: the ports and the transaction both leave what `DispatchDone` says. -/
theorem portDispatchMatchesTransaction : Obligations.PortDispatchMatchesTransaction := by
  intro s b reqs rest hidle _ hrow hlen
  obtain ⟨t, ht, htdone⟩ := dispatchDone_ports rest hidle hrow hlen
  have hok : ∀ r ∈ reqs.map busRequest, r.ok = true := by
    intro r hr
    obtain ⟨x, hx, rfl⟩ := List.mem_map.mp hr
    exact ok_busRequest (hlen x hx)
  obtain ⟨u, hu, hudone⟩ := dispatchDone_transaction rest hidle hrow hok
  exact ⟨t, u, ht, hu, htdone.dec.trans hudone.dec.symm, htdone.sink.trans hudone.sink.symm,
    htdone.log.trans hudone.log.symm, htdone.queue.trans hudone.queue.symm, htdone.port⟩

end Sys2Proof.Machine
end

section
/-!
PROOFS. The encoding family: the row the registers select for a byte, and its key (30_encoding.md R51); FRAME rows
and their bytes (R45); the pseudo-instructions and their expansions (R58); a STEP row outside its condition, and the
placement of a table word (logs 14 and 15).
-/

namespace Sys2Proof.Machine

/-! ### STEP rows and their keys -/

/-- The row the registers select for a byte encodes to the `state` register and that byte (R51). -/
theorem encode_decodeStep (d : Decoder) (b : Byte) : encode (decodeStep d b) = .key (d.state.code ++ b) := by
  unfold decodeStep
  cases d.state with
  | waitStart =>
    dsimp only
    split_ifs with hb
    · rw [show b = Config.startMarker from beq_iff_eq.mp hb]
      rfl
    · rfl
  | readLength =>
    dsimp only
    split_ifs with h0
    · rw [h0]
      rfl
    all_goals rfl
  | readPayload | readChecksum => dsimp only; split_ifs <;> rfl
  | readCommand | code5 | code6 | code7 => rfl

theorem stepByte_decodeStep (d : Decoder) (b : Byte) : stepByte (decodeStep d b) = some b := by
  rw [stepByte, encode_decodeStep]
  exact congrArg some (keyByte_append _ b)

/-- A row whose condition holds of the registers is what they select for some byte (R51). -/
theorem exists_decodeStep_of_rowSelected {d : Decoder} {i : Instr} (h : rowSelected i d = true) :
    ∃ b, decodeStep d b = i := by
  cases i with
  | wsStart =>
    have hs : d.state = .waitStart := by simpa [rowSelected] using h
    exact ⟨Config.startMarker, by simp [decodeStep, hs, isStartMarker]⟩
  | wsSkip b =>
    obtain ⟨hs, hb⟩ : d.state = .waitStart ∧ isStartMarker b = false := by simpa [rowSelected] using h
    exact ⟨b, by simp [decodeStep, hs, hb]⟩
  | rcCmd c =>
    have hs : d.state = .readCommand := by simpa [rowSelected] using h
    exact ⟨c, by simp [decodeStep, hs]⟩
  | rlZero =>
    have hs : d.state = .readLength := by simpa [rowSelected] using h
    exact ⟨0#8, by simp [decodeStep, hs]⟩
  | rlLen l =>
    obtain ⟨⟨hs, h0⟩, hl⟩ : (d.state = .readLength ∧ l ≠ 0#8) ∧ isOverLength l = false := by
      simpa [rowSelected] using h
    exact ⟨l, by simp [decodeStep, hs, h0, hl]⟩
  | rlOver b =>
    obtain ⟨hs, hb⟩ : d.state = .readLength ∧ isOverLength b = true := by simpa [rowSelected] using h
    have h0 : b ≠ 0#8 := by rintro rfl; simp [isOverLength_iff] at hb
    exact ⟨b, by simp [decodeStep, hs, h0, hb]⟩
  | rpMore p =>
    obtain ⟨hs, hm⟩ := rowSelected_rpMore h
    have hmore : d.moreToCome = true := by simp only [rowSelected, Bool.and_eq_true] at h; exact h.2
    exact ⟨p, by simp [decodeStep, hs, ← malformed_eq_registers (.inl hs), hm, hmore]⟩
  | rpLast p =>
    obtain ⟨hs, hm⟩ := rowSelected_rpLast h
    have hmore : d.moreToCome = false := by
      simp only [rowSelected, Bool.and_eq_true, Decoder.lastToCome, decide_eq_true_eq] at h
      rw [Decoder.moreToCome, decide_eq_false_iff_not]
      omega
    exact ⟨p, by simp [decodeStep, hs, ← malformed_eq_registers (.inl hs), hm, hmore]⟩
  | rkOk k =>
    obtain ⟨⟨hs, hm⟩, hk⟩ : (d.state = .readChecksum ∧ d.malformed = false) ∧ k = d.checksum := by
      simpa [rowSelected] using h
    exact ⟨k, by simp [decodeStep, hs, ← malformed_eq_registers (.inr hs), hm, ← hk]⟩
  | rkBad k =>
    obtain ⟨⟨hs, hm⟩, hk⟩ : (d.state = .readChecksum ∧ d.malformed = false) ∧ k ≠ d.checksum := by
      simpa [rowSelected] using h
    exact ⟨k, by simp [decodeStep, hs, ← malformed_eq_registers (.inr hs), hm, hk]⟩
  | xxResetState5 b =>
    have hs : d.state = .code5 := by simpa [rowSelected] using h
    exact ⟨b, by simp [decodeStep, hs]⟩
  | xxResetState67 lo b =>
    have hs : d.state = if lo = 0#1 then .code6 else .code7 := by simpa [rowSelected] using h
    rcases BitVec.eq_zero_or_eq_one lo with rfl | rfl <;> exact ⟨b, by simp [decodeStep, hs]⟩
  | xxResetMalformed st b =>
    obtain ⟨rfl, hreg⟩ : d.state.code = st ∧ d.malformedRegisters = true := by simpa [rowSelected] using h
    cases hs : d.state with
    | readPayload | readChecksum => exact ⟨b, by simp [decodeStep, hs, hreg, Phase.code]⟩
    | waitStart | readCommand | readLength | code5 | code6 | code7 => simp [Decoder.malformedRegisters, hs] at hreg
  | frameL0 | frameL1 | frameL2 | frameL3 | frameL4 | frameL5 | frameL6 | frameL7 | frameL8 | frameL9 | frameL10
  | ack | nack | encode | reset | frame | badframe | raw => cases h

/-- The byte of a row whose condition holds selects that row. -/
theorem decodeStep_of_rowSelected {d : Decoder} {i : Instr} {b : Byte} (hb : stepByte i = some b)
    (h : rowSelected i d = true) : decodeStep d b = i := by
  obtain ⟨b', rfl⟩ := exists_decodeStep_of_rowSelected h
  rw [stepByte_decodeStep] at hb
  cases hb
  rfl

/-- Settles O7: a selected row is the one decoding gives, which is selected and delivered with its byte. -/
theorem exactlyOneRowSelected : Obligations.ExactlyOneRowSelected := by
  refine fun d b i => ⟨fun ⟨hb, h⟩ => (decodeStep_of_rowSelected hb h).symm, ?_⟩
  rintro rfl
  exact ⟨stepByte_decodeStep d b, rowSelected_decodeStep d b⟩

/-! ### FRAME rows and their bytes -/

theorem encode_frameRow {c k : Byte} {p : List Byte} {i : Instr} (h : frameRow c p k = some i) :
    encode i = .bytes (frameBytes c p k) := by
  unfold frameRow at h
  split at h <;> cases h <;> rfl

theorem length_le_of_frameRow {c k : Byte} {p : List Byte} {i : Instr} (h : frameRow c p k = some i) :
    p.length ≤ 10 := by
  unfold frameRow at h
  split at h <;> cases h <;> simp

theorem exists_frameRow (c k : Byte) (p : List Byte) (h : p.length ≤ 10) : ∃ i, frameRow c p k = some i := by
  match p, h with
  | [], _ | [_], _ | [_, _], _ | [_, _, _], _ | [_, _, _, _], _ | [_, _, _, _, _], _ | [_, _, _, _, _, _], _
  | [_, _, _, _, _, _, _], _ | [_, _, _, _, _, _, _, _], _ | [_, _, _, _, _, _, _, _, _], _
  | [_, _, _, _, _, _, _, _, _, _], _ => exact ⟨_, rfl⟩
  | _ :: _ :: _ :: _ :: _ :: _ :: _ :: _ :: _ :: _ :: _ :: _, h =>
    simp only [List.length_cons] at h
    omega

/-- The bytes of a frame match the pattern of its FRAME row, whatever the last byte (R45, log 6). -/
theorem decodeFrame_frameBytes (c k : Byte) {p : List Byte} (h : p.length ≤ 10) :
    decodeFrame (frameBytes c p k) = frameRow c p k := by
  have hlen : (lengthByte p).toNat = p.length := by
    rw [lengthByte, BitVec.toNat_ofNat]
    omega
  simp [decodeFrame, frameBytes, hlen, maxPayload_eq, h]

theorem decodeBytes_frameBytes {c k : Byte} {p : List Byte} {i : Instr} (h : frameRow c p k = some i) :
    decodeBytes (frameBytes c p k) = i := by
  rw [decodeBytes, decodeFrame_frameBytes c k (length_le_of_frameRow h), h]
  rfl

/-- Any code that is the bytes of a frame decodes to its FRAME row. -/
theorem decodeCode_frameBytes (d : Decoder) {c k : Byte} {p : List Byte} {i : Instr} (h : frameRow c p k = some i) :
    decodeCode d (.bytes (frameBytes c p k)) = .ok i :=
  congrArg Except.ok (decodeBytes_frameBytes h)

theorem encode_decodeBytes (bs : List Byte) : encode (decodeBytes bs) = .bytes bs := by
  unfold decodeBytes
  cases h : decodeFrame bs with
  | none => rfl
  | some i =>
    obtain ⟨c, p, k, hrow, rfl⟩ := frameBytes_of_decodeFrame h
    exact encode_frameRow hrow

theorem decodeCode_encode_of_rowSelected {d : Decoder} {i : Instr} (h : rowSelected i d = true) :
    decodeCode d (encode i) = .ok i := by
  obtain ⟨b, rfl⟩ := exists_decodeStep_of_rowSelected h
  rw [encode_decodeStep, decodeCode, decodeKey_code]

/-- Settles O8: STEP rows through the key of their byte; FRAME rows, FRAME and BADFRAME through their bytes. -/
theorem decodeInvertsEncode : Obligations.DecodeInvertsEncode := by
  refine ⟨fun d i h => decodeCode_encode_of_rowSelected h,
    fun d c p k i h => encode_frameRow h ▸ decodeCode_frameBytes d h,
    fun c p k h => exists_frameRow c k p h, fun d => ⟨rfl, rfl, rfl⟩, fun d cmd len data => rfl,
    fun d c p i h => decodeCode_frameBytes d h, fun d c p k i h => decodeCode_frameBytes d h, fun d bs h => ?_⟩
  rw [encode, decodeCode, decodeBytes, h]
  rfl

/-- Settles O9: the key of a byte's row, and the bytes of a run's row. -/
theorem encodeInvertsDecode : Obligations.EncodeInvertsDecode :=
  ⟨encode_decodeStep, encode_decodeBytes⟩

/-! ### A STEP row outside its condition -/

theorem exec_of_not_selected {i : Instr} {s : State} {b : Byte} (hb : stepByte i = some b)
    (h : rowSelected i s.dec = false) : exec i s = .refused .rowNotSelected := by
  cases i with
  | wsStart | wsSkip | rcCmd | rlZero | rlLen | rlOver | rpMore | rpLast | rkOk | rkBad | xxResetState5
  | xxResetState67 | xxResetMalformed => exact if_neg (Bool.eq_false_iff.mp h)
  | frameL0 | frameL1 | frameL2 | frameL3 | frameL4 | frameL5 | frameL6 | frameL7 | frameL8 | frameL9 | frameL10
  | ack | nack | encode | reset | frame | badframe | raw => cases hb

theorem perform_ne_rowNotSelected (es : List Event) (s : State) : perform es s ≠ .refused .rowNotSelected := by
  rcases perform_cases es s with ⟨t, e, -⟩ | e | e <;> rw [e] <;> nofun

theorem runEncode_ne_rowNotSelected (r : EncodeRequest) (s : State) : runEncode r s ≠ .refused .rowNotSelected := by
  cases hr : r.ok with
  | true => rw [runEncode_of_ok hr]; nofun
  | false => rcases runEncode_of_not_ok hr s with e | e <;> rw [e] <;> nofun

/-- What a delivery decodes to in the present registers is never refused as not selected. -/
theorem exec_decode_ne_rowNotSelected {x : Delivery} {i : Instr} {s : State} (hi : decode s.dec x = .ok i) :
    exec i s ≠ .refused .rowNotSelected := by
  cases x with
  | byte b =>
    rw [decode_byte] at hi
    cases hi
    rw [exec_decodeStep]
    exact perform_ne_rowNotSelected _ _
  | bytes bs =>
    rw [decode_bytes] at hi
    cases hi
    rw [exec_decodeBytes, deliverBytes_eq_perform]
    exact perform_ne_rowNotSelected _ _
  | response b =>
    rw [decode_response] at hi
    rcases decodeResponse_eq_ok hi with rfl | rfl <;> nofun
  | request r =>
    rw [decode_request] at hi
    cases hi
    exact runEncode_ne_rowNotSelected r s
  | reset =>
    rw [decode_reset] at hi
    cases hi
    nofun

theorem deliver_ne_rowNotSelected (x : Delivery) (s : State) : deliver x s ≠ .refused .rowNotSelected := by
  unfold deliver
  split_ifs
  · nofun
  · split
    case h_1 i hi => exact exec_decode_ne_rowNotSelected (s := s.finishFrame) hi
    case h_2 e _ => cases e; nofun

theorem clockEdge_ne_rowNotSelected (pins : Pins) (s : State) : clockEdge pins s ≠ .refused .rowNotSelected := by
  rcases clockEdge_cases pins s with ⟨-, -, e⟩ | ⟨-, -, -, -, e⟩ | ⟨-, -, e⟩ <;> rw [e] <;> nofun

theorem step_ne_rowNotSelected (s : State) : step s ≠ .refused .rowNotSelected := by
  cases hq : s.queue with
  | nil => simp only [step, takeStimulus, hq]; nofun
  | cons x rest =>
    cases x with
    | deliver x => exact step_deliver hq ▸ deliver_ne_rowNotSelected x (s.withQueue rest)
    | cycle pins => exact step_cycle hq ▸ clockEdge_ne_rowNotSelected pins (s.withQueue rest)

/-- Settles O22: a row whose condition holds is the whole decoder step on its byte, which is not refused so. -/
theorem unselectedRowRefused : Obligations.UnselectedRowRefused := by
  refine ⟨fun i s b hb => ⟨fun hx => ?_, exec_of_not_selected hb⟩, step_ne_rowNotSelected⟩
  rw [← Bool.not_eq_true]
  intro hsel
  rw [← decodeStep_of_rowSelected hb hsel, exec_decodeStep] at hx
  exact perform_ne_rowNotSelected _ _ hx

/-! ### Rows and pseudo-instructions that deliver a run of bytes -/

/-- With a Dispatcher that keeps the encoder's precondition, a run of bytes completes as the decoder's run over
them, its events performed in order (R77, R123). -/
theorem deliverBytes_of_ok (bs : List Byte) {s : State} (h : s.allRepliesOk) :
    ∃ t, deliverBytes bs s = .next t ∧ t.dec = (decRun s.dec bs).1 ∧ t.queue = s.queue ∧ t.port = s.port ∧
      perform (decRun s.dec bs).2 { s with dec := (decRun s.dec bs).1 } = .next t := by
  obtain ⟨t, ht, -⟩ := perform_of_ok (s := s.withDec (decRun s.dec bs).1) (decRun s.dec bs).2 h
  rcases perform_cases (decRun s.dec bs).2 (s.withDec (decRun s.dec bs).1) with ⟨u, e, hdec, hqueue, hport⟩ | e | e <;>
    rw [ht] at e <;> cases e
  exact ⟨t, (deliverBytes_eq_perform bs s).trans ht, hdec, hqueue, hport, ht⟩

/-- Settles O33: every FRAME row's meaning is the delivery of its bytes. -/
theorem frameRowsRunTheirBytes : Obligations.FrameRowsRunTheirBytes := by
  intro s c p0 p1 p2 p3 p4 p5 p6 p7 p8 p9 k i bs hok hi
  have hexec : exec i s = deliverBytes bs s := by
    simp only [List.mem_cons, Prod.mk.injEq, List.not_mem_nil, or_false] at hi
    rcases hi with ⟨rfl, rfl⟩ | ⟨rfl, rfl⟩ | ⟨rfl, rfl⟩ | ⟨rfl, rfl⟩ | ⟨rfl, rfl⟩ | ⟨rfl, rfl⟩ | ⟨rfl, rfl⟩ |
      ⟨rfl, rfl⟩ | ⟨rfl, rfl⟩ | ⟨rfl, rfl⟩ | ⟨rfl, rfl⟩ <;> rfl
  rw [hexec]
  exact deliverBytes_of_ok bs hok

/-- Settles O34: where it is defined, a pseudo-instruction's meaning is the delivery of its expansion. -/
theorem pseudoInstructionsRunTheirExpansion : Obligations.PseudoInstructionsRunTheirExpansion := by
  intro s i bs hok hi
  have hexec : exec i s = deliverBytes bs s := by
    rcases hi with ⟨c, p, hlen, rfl, rfl⟩ | ⟨c, p, k, hlen, hk, rfl, rfl⟩ | rfl
    · exact if_pos hlen
    · exact if_pos ⟨hlen, hk⟩
    · rfl
  rw [hexec]
  exact deliverBytes_of_ok bs hok

/-! ### Table words -/

@[simp] theorem tableContext_state (st : StateCode) : (tableContext st).state = Phase.ofCode st := by
  unfold tableContext
  split <;> rename_i h <;> exact h.symm

/-- A code delivered in the registers a table word is read in is the table word's instruction (log 14). -/
theorem decode_delivery (d : Decoder) (c : Code) :
    decode (tableRegisters d c) c.delivery = decodeCode (tableRegisters Decoder.reset c) c := by
  cases c with
  | key k =>
    have hkey : (tableContext (keyState k)).state.code ++ keyByte k = k := by
      rw [tableContext_state, code_ofCode, keyState_append_keyByte]
    exact congrArg (fun x => decodeCode (tableContext (keyState k)) (.key x)) hkey
  | bytes | response | request | event => rfl

theorem decodeCode_of_decodeTableWord {nbits w : Nat} {i : Instr} (h : decodeTableWord nbits w = some i) :
    decodeCode (tableRegisters Decoder.reset (tableCode nbits w)) (tableCode nbits w) = .ok i := by
  unfold decodeTableWord at h
  split at h <;> cases h
  assumption

/-- Settles O4: the word is at the queue's front, with idle ports, in the registers it is decoded in. -/
theorem tableWordIsRunNext : Obligations.TableWordIsRunNext := by
  intro s nbits w i h
  have hdec := (decode_delivery s.dec (tableCode nbits w)).trans (decodeCode_of_decodeTableWord h)
  rw [step_of_decode (s := s.withFetchWord nbits w) rfl rfl hdec, finishFrame_of_tx_nil rfl]
  rfl

/-- Settles O6: each word, read by the model's decoder. -/
theorem specWordsDecode : Obligations.SpecWordsDecode := by
  unfold Obligations.SpecWordsDecode
  decide

end Sys2Proof.Machine
end

section
/-!
PROOFS. The decoder family: the row each state selects for a byte (30_encoding.md R51) and, through the whole
decoder step (40_decoder.md R77), what it does (R66 to R76); what one step emits (R78); the marker value inside a
frame (R79); the frame of the rows without output; nothing delivered (R80).
-/

namespace Sys2Proof.Machine

/-! ### The row of a byte, state by state -/

section Rows

variable {d : Decoder} (b : Byte)

theorem decodeStep_waitStart (h : d.state = .waitStart) :
    decodeStep d b = if b = 0xAA#8 then .wsStart else .wsSkip b := by
  simp [decodeStep, h, isStartMarker]

theorem decodeStep_readCommand (h : d.state = .readCommand) : decodeStep d b = .rcCmd b := by
  simp [decodeStep, h]

theorem decodeStep_readLength (h : d.state = .readLength) :
    decodeStep d b = if b = 0#8 then .rlZero else if 10 < b.toNat then .rlOver b else .rlLen b := by
  simp [decodeStep, h, isOverLength_iff]

theorem decodeStep_readPayload (h : d.state = .readPayload) (hl : d.payloadLength.toNat ≤ 10)
    (hi : d.index.toNat < d.payloadLength.toNat) :
    decodeStep d b = if d.index.toNat + 1 < d.payloadLength.toNat then .rpMore b else .rpLast b := by
  have hreg : d.malformedRegisters = false :=
    malformed_eq_registers (.inl h) ▸ not_malformed_readPayload h hl hi
  simp [decodeStep, h, hreg, Decoder.moreToCome]

theorem decodeStep_readChecksum (h : d.state = .readChecksum) (hl : d.payloadLength.toNat ≤ 10) :
    decodeStep d b = if b = d.checksum then .rkOk b else .rkBad b := by
  have hreg : d.malformedRegisters = false :=
    malformed_eq_registers (.inr h) ▸ not_malformed_readChecksum h hl
  simp [decodeStep, h, hreg]

theorem malformed_unrecognised (h : d.state = .code5 ∨ d.state = .code6 ∨ d.state = .code7) :
    d.malformed = true := by
  rcases h with h | h | h <;> simp [Decoder.malformed, h]

/-- The row that decoding gives in given registers, asked through its condition (R51). -/
theorem decodeStep_eq_iff {i : Instr} : decodeStep d b = i ↔ stepByte i = some b ∧ rowSelected i d = true :=
  eq_comm.trans (exactlyOneRowSelected d b i).symm

@[simp] theorem stepByte_rlOver (x : Byte) : stepByte (.rlOver x) = some x :=
  congrArg some (keyByte_append 2#3 x)

@[simp] theorem stepByte_rkBad (x : Byte) : stepByte (.rkBad x) = some x :=
  congrArg some (keyByte_append 4#3 x)

end Rows

/-! ### What a selected row does, read off the whole step -/

section SelectedRow

variable {s : State} {b : Byte} {i : Instr} {d : Decoder}

theorem exec_of_decodeStep (hrow : decodeStep s.dec b = i) : exec i s = deliverByte b s :=
  hrow ▸ exec_decodeStep s b

/-- A row whose step emits nothing changes the decoder's registers alone. -/
theorem exec_of_silent (hrow : decodeStep s.dec b = i) (hstep : decStep s.dec b = (d, [])) :
    exec i s = .next { s with dec := d } := by
  rw [exec_of_decodeStep hrow, deliverByte, hstep]
  rfl

/-- A rejecting row resets the registers and emits one NACK (60_exceptions.md R155). -/
theorem exec_of_rejected (hrow : decodeStep s.dec b = i) (hstep : decStep s.dec b = (Decoder.reset, [.resp 0x15#8])) :
    exec i s = .next { s with dec := Decoder.reset, log := s.log ++ [.resp 0x15#8], sink := s.sink ++ [0x15#8] } := by
  rw [exec_of_decodeStep hrow, deliverByte, hstep]
  rfl

/-- A defensive reset's row resets the registers and emits nothing (R76). -/
theorem exec_of_malformed (hm : s.dec.malformed = true) (hrow : decodeStep s.dec b = i) :
    exec i s = .next { s with dec := Decoder.reset } :=
  exec_of_silent hrow (decStep_malformed b hm)

end SelectedRow

/-! ### The transitions -/

/-- Settles O10: the silent step of `WaitStart` on the marker. -/
theorem startMarkerAccepted : Obligations.StartMarkerAccepted := by
  intro s hs
  have hrow : decodeStep s.dec 0xAA#8 = .wsStart := decodeStep_waitStart _ hs
  exact ⟨hrow, exec_of_silent hrow (decStep_waitStart _ hs)⟩

/-- Settles O11: the registers of the step are the ones it began with. -/
theorem otherBytesDiscarded : Obligations.OtherBytesDiscarded := by
  intro s b hs hb
  have hrow : decodeStep s.dec b = .wsSkip b := by rw [decodeStep_waitStart b hs, if_neg hb]
  exact ⟨hrow, exec_of_silent hrow (by rw [decStep_waitStart b hs, if_neg hb])⟩

/-- Settles O12: the silent step of `ReadCommand`. -/
theorem commandByteStored : Obligations.CommandByteStored := by
  intro s b hs
  have hrow := decodeStep_readCommand b hs
  exact ⟨hrow, exec_of_silent hrow (decStep_readCommand b hs)⟩

/-- Settles O13: the silent step of `ReadLength` on 0. -/
theorem zeroLengthSkipsPayload : Obligations.ZeroLengthSkipsPayload := by
  intro s hs
  have hrow : decodeStep s.dec 0#8 = .rlZero := decodeStep_readLength _ hs
  exact ⟨hrow, exec_of_silent hrow (decStep_readLength _ hs)⟩

/-- Settles O14: the silent step of `ReadLength` on a byte that is neither 0 nor above 10. -/
theorem legalLengthStored : Obligations.LegalLengthStored := by
  intro s b hs hpos hmax
  have h0 : b ≠ 0#8 := by rintro rfl; simp at hpos
  have hover : ¬ 10 < b.toNat := Nat.not_lt.mpr hmax
  have hrow : decodeStep s.dec b = .rlLen b := by rw [decodeStep_readLength b hs, if_neg h0, if_neg hover]
  exact ⟨hrow, exec_of_silent hrow (by rw [decStep_readLength b hs, if_neg hover, if_neg h0])⟩

/-- Settles O15: the rejecting row, and its condition as the only way to it. -/
theorem lengthOverflowRejected : Obligations.LengthOverflowRejected := by
  refine ⟨fun s b hs hb => ?_, fun d b x => ?_⟩
  · have h0 : b ≠ 0#8 := by rintro rfl; simp at hb
    have hrow : decodeStep s.dec b = .rlOver b := by rw [decodeStep_readLength b hs, if_neg h0, if_pos hb]
    exact exec_of_rejected hrow (by rw [decStep_readLength b hs, if_pos hb])
  · rw [decodeStep_eq_iff, stepByte_rlOver, Option.some.injEq]
    simp only [rowSelected, Bool.and_eq_true, beq_iff_eq, isOverLength_iff]
    constructor
    · rintro ⟨rfl, hs, hx⟩
      exact ⟨hs, hx, rfl⟩
    · rintro ⟨hs, hb, rfl⟩
      exact ⟨rfl, hs, hb⟩

/-- Settles O16: `writeByte` at `index`, below the last address. -/
theorem payloadByteStored : Obligations.PayloadByteStored := by
  intro s b hs hl hi hwf
  have hrow : decodeStep s.dec b = .rpMore b := by rw [decodeStep_readPayload b hs hl (by omega), if_pos hi]
  have hstep := decStep_readPayload b hs hl (by omega)
  rw [if_neg (by omega), ← hs] at hstep
  exact ⟨hrow, Memory.writeByte s.dec.payload s.dec.index.toNat b, exec_of_silent hrow hstep,
    toNat_index_succ _ (by omega), fun a => readByte_writeByte _ b a hwf,
    wf_writeByte b hwf (by rw [maxPayload_eq]; omega)⟩

/-- Settles O17: `writeByte` at `index`, the last address in use. -/
theorem lastPayloadByteStored : Obligations.LastPayloadByteStored := by
  intro s b hs hl hi hwf
  have hrow : decodeStep s.dec b = .rpLast b := by
    rw [decodeStep_readPayload b hs hl (by omega), if_neg (by omega)]
  have hstep := decStep_readPayload b hs hl (by omega)
  rw [if_pos hi] at hstep
  exact ⟨hrow, Memory.writeByte s.dec.payload s.dec.index.toNat b, exec_of_silent hrow hstep,
    (toNat_index_succ _ (by omega)).trans hi, fun a => readByte_writeByte _ b a hwf,
    wf_writeByte b hwf (by rw [maxPayload_eq]; omega)⟩

/-- The state after a dispatch, field by field. -/
theorem afterDispatch_eq (c n : Byte) (p : List Byte) (s : State) :
    afterDispatch c n p s =
      { s with
        replies := s.replies.tail
        sink := s.sink ++ framesBytes (s.replies.headD [])
        log := s.log ++ .dispatch c n p :: framesEvents (s.replies.headD []) } := by
  simp [afterDispatch, afterFrames, State.emit, State.withReplies]

/-- Settles O18: the dispatch's state (`afterDispatch`), then the ACK. -/
theorem matchingChecksumDispatchesThenAcks : Obligations.MatchingChecksumDispatchesThenAcks := by
  intro s k hs hl hk hok
  have hk : k = s.dec.checksum := hk
  have hrow : decodeStep s.dec k = .rkOk k := by rw [decodeStep_readChecksum k hs hl, if_pos hk]
  refine ⟨hrow, ?_⟩
  rw [exec_of_decodeStep hrow, deliverByte, decStep_readChecksum k hs hl, if_pos hk, perform_dispatch,
    dispatch_of_ok (s := s.withDec Decoder.reset) _ _ _ hok, andThen_next, afterDispatch_eq]
  rfl

/-- Settles O19: the rejecting row, and its condition as the only way to it. -/
theorem checksumMismatchRejected : Obligations.ChecksumMismatchRejected := by
  refine ⟨fun s k hs hl hk => ?_, fun d b x h => ?_⟩
  · have hk : k ≠ s.dec.checksum := hk
    have hrow : decodeStep s.dec k = .rkBad k := by rw [decodeStep_readChecksum k hs hl, if_neg hk]
    exact ⟨hrow, exec_of_rejected hrow (by rw [decStep_readChecksum k hs hl, if_neg hk])⟩
  · rw [decodeStep_eq_iff, stepByte_rkBad, Option.some.injEq] at h
    obtain ⟨hx, hsel⟩ := h
    simp only [rowSelected, Bool.and_eq_true, beq_iff_eq] at hsel
    exact ⟨hsel.1.1, hx⟩

/-- Settles O20: in all five cases the registers are malformed. -/
theorem defensiveResetConsumesByte : Obligations.DefensiveResetConsumesByte := by
  refine ⟨fun s b hs => ?_, fun s b hs => ?_, fun s b hs => ?_, fun s b hs hl => ?_, fun s b hs hl => ?_⟩
  · have hrow : decodeStep s.dec b = .xxResetState5 b := by simp [decodeStep, hs]
    exact ⟨hrow, exec_of_malformed (malformed_unrecognised (.inl hs)) hrow⟩
  · have hrow : decodeStep s.dec b = .xxResetState67 0#1 b := by simp [decodeStep, hs]
    exact ⟨hrow, exec_of_malformed (malformed_unrecognised (.inr (.inl hs))) hrow⟩
  · have hrow : decodeStep s.dec b = .xxResetState67 1#1 b := by simp [decodeStep, hs]
    exact ⟨hrow, exec_of_malformed (malformed_unrecognised (.inr (.inr hs))) hrow⟩
  · have hm := (malformed_readPayload hs).mpr hl
    have hrow : decodeStep s.dec b = .xxResetMalformed 3#3 b := by
      simp [decodeStep, hs, ← malformed_eq_registers (.inl hs), hm]
    exact ⟨hrow, exec_of_malformed hm hrow⟩
  · have hm := (malformed_readChecksum hs).mpr hl
    have hrow : decodeStep s.dec b = .xxResetMalformed 4#3 b := by
      simp [decodeStep, hs, ← malformed_eq_registers (.inr hs), hm]
    exact ⟨hrow, exec_of_malformed hm hrow⟩

/-- Settles O21: `exec_decodeStep`, the comparison state by state. -/
theorem wholeStepAgreesWithRows : Obligations.WholeStepAgreesWithRows := exec_decodeStep

/-! ### The outputs of one step -/

/-- The three shapes of a step's output with the rows they belong to (R78). -/
theorem outputs_decStep (d : Decoder) (b : Byte) :
    (decStep d b).2 = [] ∨
      ((decStep d b).2 = [.resp 0x15#8] ∧ (decodeStep d b = .rlOver b ∨ decodeStep d b = .rkBad b)) ∨
      ((decStep d b).2 = [.dispatch d.commandId d.payloadLength d.payloadInUse, .resp 0x06#8] ∧
        decodeStep d b = .rkOk b ∧ d.payloadLength.toNat ≤ 10) := by
  cases hm : d.malformed with
  | true => exact .inl (by rw [decStep_malformed b hm])
  | false =>
    cases hs : d.state with
    | waitStart => rw [decStep_waitStart b hs]; split_ifs <;> exact .inl rfl
    | readCommand => exact .inl (by rw [decStep_readCommand b hs])
    | readLength =>
      rw [decStep_readLength b hs]
      split_ifs with hover h0
      · have hne : b ≠ 0#8 := by rintro rfl; simp at hover
        exact .inr (.inl ⟨rfl, .inl (by rw [decodeStep_readLength b hs, if_neg hne, if_pos hover])⟩)
      · exact .inl rfl
      · exact .inl rfl
    | readPayload =>
      obtain ⟨hl, hi⟩ := readPayload_bounds hs hm
      exact .inl (by rw [decStep_readPayload b hs hl hi])
    | readChecksum =>
      have hl := readChecksum_bound hs hm
      rw [decStep_readChecksum b hs hl, decodeStep_readChecksum b hs hl]
      split_ifs with hb
      · exact .inr (.inr ⟨rfl, rfl, hl⟩)
      · exact .inr (.inl ⟨rfl, .inr rfl⟩)
    | code5 | code6 | code7 => simp [Decoder.malformed, hs] at hm

/-- In the table of R21 a step answers exactly where it ends a frame attempt (42_dispatch.md R91, 44_response.md
R112). -/
theorem responseCount_decStep {d : Decoder} (b : Byte) (h : d.Inv) :
    responseCount (decStep d b).2 = 1 ↔ d.state ≠ .waitStart ∧ (decStep d b).1.state = .waitStart := by
  obtain ⟨-, htab⟩ := h
  cases hs : d.state with
  | waitStart => rw [decStep_waitStart b hs]; split_ifs <;> simp [responseCount]
  | readCommand => simp [decStep_readCommand b hs, responseCount]
  | readLength => rw [decStep_readLength b hs]; split_ifs <;> simp [responseCount]
  | readPayload =>
    simp only [hs] at htab
    obtain ⟨-, hl, hi, -⟩ := htab
    rw [decStep_readPayload b hs hl hi]
    split_ifs <;> simp [responseCount]
  | readChecksum =>
    simp only [hs] at htab
    obtain ⟨-, hl, -, -⟩ := htab
    rw [decStep_readChecksum b hs hl]
    split_ifs <;> simp [responseCount]
  | code5 | code6 | code7 => simp [hs] at htab

/-- Settles O24: the shapes from any registers, the response count in the table of R21. -/
theorem outputsOfOneStep : Obligations.OutputsOfOneStep :=
  fun d b => ⟨outputs_decStep d b, responseCount_decStep b⟩

/-! ### The marker value inside a frame -/

/-- No byte outside `WaitStart` begins a frame (R79). -/
theorem decStep_state_ne_readCommand {d : Decoder} (b : Byte) (h : d.state ≠ .waitStart) :
    (decStep d b).1.state ≠ .readCommand := by
  cases hm : d.malformed with
  | true => rw [decStep_malformed b hm]; nofun
  | false =>
    cases hs : d.state with
    | waitStart => exact absurd hs h
    | readCommand => rw [decStep_readCommand b hs]; nofun
    | readLength => rw [decStep_readLength b hs]; split_ifs <;> nofun
    | readPayload =>
      obtain ⟨hl, hi⟩ := readPayload_bounds hs hm
      rw [decStep_readPayload b hs hl hi]
      split_ifs <;> nofun
    | readChecksum =>
      rw [decStep_readChecksum b hs (readChecksum_bound hs hm)]
      split_ifs <;> nofun
    | code5 | code6 | code7 => simp [Decoder.malformed, hs] at hm

/-- Settles O25: the marker value as a command, as a length above 10, as a payload byte. -/
theorem markerInsideFrameIsData : Obligations.MarkerInsideFrameIsData := by
  refine fun d h => ⟨decStep_state_ne_readCommand _ h, fun hs => ?_, fun hs => ?_, fun hs hm hwf => ?_⟩
  · rw [decStep_readCommand _ hs]
  · exact decStep_readLength _ hs
  · obtain ⟨hl, hi⟩ := readPayload_bounds hs hm
    rw [decStep_readPayload _ hs hl hi]
    exact (readByte_writeByte _ _ _ hwf).trans (if_pos rfl)

/-! ### The frame of the rows without output -/

/-- A STEP row that answers a next state was selected, and its effect answered it. -/
theorem whenSelected_eq_next {i : Instr} {s t : State} {effect : State → Result}
    (h : whenSelected i s effect = .next t) : rowSelected i s.dec = true ∧ effect s = .next t := by
  rcases whenSelected_cases i s effect with ⟨hsel, e⟩ | ⟨-, e⟩ <;> rw [e] at h
  · exact ⟨hsel, h⟩
  · cases h

/-- A store that completes writes `payload`, `index` and `state` (R72, R73). -/
theorem storePayloadThen_eq_next {p : Byte} {next : Phase} {s t : State}
    (h : storePayloadThen p next s = .next t) :
    ∃ m, t = s.withDec { s.dec with payload := m, index := s.dec.index + 1#4, state := next } := by
  unfold storePayloadThen Decoder.storePayload at h
  cases hw : Memory.memWrite s.dec.payload s.dec.index.toNat p with
  | none => simp [hw] at h
  | some m =>
    simp only [hw, Option.map_some, Host.Outcome.next.injEq] at h
    exact ⟨m, h.symm⟩

/-- Settles O26: the registers each row writes. -/
theorem quietRowsFrame : Obligations.QuietRowsFrame := by
  intro i b s t hb hok hbad hover ht
  cases i with
  | wsStart | wsSkip | rcCmd | rlZero | rlLen =>
    dsimp only [exec, execWsStart, execWsSkip, execRcCmd, execRlZero, execRlLen] at ht
    obtain ⟨-, ht⟩ := whenSelected_eq_next ht
    cases ht
    simp
  | xxResetState5 | xxResetState67 | xxResetMalformed =>
    obtain ⟨-, ht⟩ := whenSelected_eq_next ht
    cases ht
    simp
  | rpMore | rpLast =>
    obtain ⟨-, ht⟩ := whenSelected_eq_next ht
    obtain ⟨m, rfl⟩ := storePayloadThen_eq_next ht
    simp
  | rlOver x => exact absurd rfl (hover x)
  | rkOk k => exact absurd rfl (hok k)
  | rkBad k => exact absurd rfl (hbad k)
  | frameL0 | frameL1 | frameL2 | frameL3 | frameL4 | frameL5 | frameL6 | frameL7 | frameL8 | frameL9 | frameL10
  | ack | nack | encode | reset | frame | badframe | raw => cases hb

/-! ### Nothing delivered -/

theorem step_of_queue_nil {s : State} (hq : s.queue = []) : step s = .next s := by
  simp only [step, takeStimulus, hq]

/-- Settles O5, by induction on the number of steps. -/
theorem nothingDeliveredNothingChanges : Obligations.NothingDeliveredNothingChanges := by
  intro s n hq
  change steps n s = .next s
  induction n with
  | zero => rfl
  | succ n ih => rw [steps_succ, step_of_queue_nil hq, andThen_next, ih]

end Sys2Proof.Machine
end

section
/-!
PROOFS. The checksum family: the sum of R85 as addition in the 8-bit words, and what a changed, permuted or
cancelled byte does to it (41_checksum.md R88).
-/

namespace Sys2Proof.Machine

/-! ### The exact sum of the payload bytes -/

@[simp] theorem byteSum_nil : byteSum [] = 0 := rfl

@[simp] theorem byteSum_cons (x : Byte) (p : List Byte) : byteSum (x :: p) = x.toNat + byteSum p := rfl

/-- The low 8 bits of the exact sum are the sum of the bytes as 8-bit words. -/
theorem ofNat_byteSum (p : List Byte) : BitVec.ofNat 8 (byteSum p) = p.sum := by
  induction p with
  | nil => rfl
  | cons x p ih => rw [byteSum_cons, BitVec.ofNat_add, BitVec.ofNat_toNat, BitVec.setWidth_eq, ih, List.sum_cons]

theorem byteSum_le (p : List Byte) : byteSum p ≤ 255 * p.length := by
  induction p with
  | nil => exact Nat.zero_le _
  | cons x p ih =>
    have hx : x.toNat < 256 := x.isLt
    rw [byteSum_cons, List.length_cons]
    omega

/-! ### The checksum as addition in the 8-bit words -/

/-- R85: truncating once at the end is truncating after every addition. -/
theorem checksum_eq_add_sum (sm cmd n : Byte) (p : List Byte) : checksum sm cmd n p = sm + cmd + n + p.sum := by
  simp only [checksum, BitVec.ofNat_add, ofNat_byteSum, BitVec.ofNat_toNat, BitVec.setWidth_eq]

theorem toNat_checksum (sm cmd n : Byte) (p : List Byte) :
    (checksum sm cmd n p).toNat = (sm.toNat + cmd.toNat + n.toNat + byteSum p) % 256 :=
  BitVec.toNat_ofNat _ _

/-- The running sum of the bytes from any start is the start and their sum. -/
theorem foldl_add_eq_add_sum (p : List Byte) (a : Byte) : p.foldl (· + ·) a = a + p.sum := by
  induction p generalizing a with
  | nil => exact (add_zero a).symm
  | cons x p ih => rw [List.foldl_cons, ih, List.sum_cons, add_assoc]

/-- One payload byte enters the checksum by addition to that of the others. -/
theorem checksum_payload_byte (sm c n x : Byte) (p q : List Byte) :
    checksum sm c n (p ++ x :: q) = checksum sm c n (p ++ q) + x := by
  simp only [checksum_eq_add_sum, List.sum_append, List.sum_cons]
  ring

/-- R88, item 4. -/
theorem checksum_payload_byte_bijective (sm c n : Byte) (p q : List Byte) :
    Function.Bijective fun x => checksum sm c n (p ++ x :: q) := by
  simp only [checksum_payload_byte]
  exact AddGroup.addLeft_bijective _

/-- R88, item 1, for the command. -/
theorem checksum_command_injective (sm n : Byte) (p : List Byte) :
    Function.Injective fun c => checksum sm c n p := by
  intro c c' h
  simpa only [checksum_eq_add_sum, add_left_inj, add_right_inj] using h

/-- R88, item 2, for the payload. -/
theorem checksum_perm (sm c n : Byte) {p q : List Byte} (h : p.Perm q) : checksum sm c n p = checksum sm c n q := by
  rw [checksum_eq_add_sum, checksum_eq_add_sum, h.sum_eq]

/-- R88, item 2, for the command and the first payload byte. -/
theorem checksum_cancelling_changes (sm c n d x : Byte) (p : List Byte) :
    checksum sm (c + d) n ((x - d) :: p) = checksum sm c n (x :: p) := by
  simp only [checksum_eq_add_sum, List.sum_cons]
  ring

/-! ### The obligations -/

/-- Settles O38: the checksum is addition in the 8-bit words, and each payload byte adds at most 255 to the
exact sum. -/
theorem checksumIsSumModulo256 : Obligations.ChecksumIsSumModulo256 := by
  refine ⟨fun sm cmd n p => ⟨toNat_checksum sm cmd n p, ?_⟩, fun cmd n p hn hp => ?_, by decide⟩
  · rw [foldl_add_eq_add_sum, checksum_eq_add_sum]
  · have hcmd : cmd.toNat < 256 := cmd.isLt
    have hsum : (p.map BitVec.toNat).sum ≤ 255 * p.length := byteSum_le p
    omega

/-- Settles O39: each clause follows from the checksum being addition in the 8-bit words. -/
theorem checksumDetectsOneChange : Obligations.ChecksumDetectsOneChange :=
  ⟨fun sm _ _ n p hne => (checksum_command_injective sm n p).ne hne,
    fun sm c n p q _ _ hne => (checksum_payload_byte_bijective sm c n p q).injective.ne hne,
    fun sm c n _ _ hperm => checksum_perm sm c n hperm,
    fun sm c n d p x => checksum_cancelling_changes sm c n d x p,
    checksum_payload_byte_bijective⟩

end Sys2Proof.Machine
end

section
/-!
PROOFS. The dispatch family: a stream through the system is the events of the decoder's run served in order
(45_interfaces.md R123), so the list of answers a Dispatcher gives to these events takes its place
(42_dispatch.md R96, log 3).
-/

namespace Sys2Proof.Machine

section Dispatchers

variable {Env : Type} (D : Dispatcher Env)

/-! ### Serving the events -/

theorem serveEvents_dispatch (c n : Byte) (p : List Byte) (es : List Event) (env : Env) (sink : List Byte) :
    serveEvents D (.dispatch c n p :: es) env sink =
      (appendFrames (D env c p).2 sink).bind (serveEvents D es (D env c p).1) := by
  rw [serveEvents]
  cases appendFrames (D env c p).2 sink <;> rfl

theorem serveEvents_append (es fs : List Event) (env : Env) (sink : List Byte) :
    serveEvents D (es ++ fs) env sink =
      (serveEvents D es env sink).bind fun r => serveEvents D fs r.1 r.2 := by
  induction es generalizing env sink with
  | nil => rfl
  | cons e es ih =>
    cases e with
    | resp b => exact ih _ _
    | tx f => exact ih _ _
    | dispatch c n p => simp only [List.cons_append, serveEvents_dispatch, ih, Option.bind_assoc]

/-! ### A stream of bytes -/

theorem sysRun_cons (d : Decoder) (env : Env) (sink : List Byte) (b : Byte) (bs : List Byte) :
    sysRun D d env sink (b :: bs) =
      (serveEvents D (decStep d b).2 env sink).bind fun r => sysRun D (decStep d b).1 r.1 r.2 bs := by
  rw [sysRun, sysStep]
  cases serveEvents D (decStep d b).2 env sink <;> rfl

/-- In `SysStep` (R123) the Dispatcher never changes the decoder: a stream is the decoder's run, then its
events served. -/
theorem sysRun_eq_serveEvents_decRun (d : Decoder) (env : Env) (sink bs : List Byte) :
    sysRun D d env sink bs =
      (serveEvents D (decRun d bs).2 env sink).map fun r => ((decRun d bs).1, r) := by
  induction bs generalizing d env sink with
  | nil => rfl
  | cons b bs ih =>
    simp only [sysRun_cons, ih, decRun_cons, serveEvents_append, Option.map_bind, Function.comp_def]

/-! ### The answers of a Dispatcher as a script -/

/-- The requests of each dispatch among the events, in order: what the Dispatcher would be recorded to ask. -/
def answersTo : List Event → Env → List (List EncodeRequest)
  | [], _ => []
  | .dispatch c _ p :: es, env => (D env c p).2 :: answersTo es (D env c p).1
  | .resp _ :: es, env => answersTo es env
  | .tx _ :: es, env => answersTo es env

/-- The recorded answers take the Dispatcher's place: the same sink, or the same stop. -/
theorem serveEvents_scripted_answersTo (es : List Event) (env : Env) (sink : List Byte) :
    (serveEvents scripted es (answersTo D es env) sink).map Prod.snd =
      (serveEvents D es env sink).map Prod.snd := by
  induction es generalizing env sink with
  | nil => rfl
  | cons e es ih =>
    cases e with
    | resp b => exact ih _ _
    | tx f => exact ih _ _
    | dispatch c n p =>
      have hanswer : scripted (answersTo D (.dispatch c n p :: es) env) c p =
        (answersTo D es (D env c p).1, (D env c p).2) := rfl
      simp only [serveEvents_dispatch, hanswer, Option.map_bind, Function.comp_def, ih]

end Dispatchers

/-! ### The obligation -/

/-- Settles O51: the script is the Dispatcher's answers to the events of the decoder's run. -/
theorem scriptCoversEveryDispatcher : Obligations.ScriptCoversEveryDispatcher := by
  intro Env D env d sink bs
  refine ⟨answersTo D (decRun d bs).2 env, ?_⟩
  have hsink := serveEvents_scripted_answersTo D (decRun d bs).2 env sink
  simpa only [sysRun_eq_serveEvents_decRun, Option.map_map, Function.comp_def] using
    congrArg (Option.map fun out => ((decRun d bs).1, out)) hsink

end Sys2Proof.Machine
end

section
/-!
PROOFS. The encoder family: the frame a request inside the encoder's domain emits (43_encoder.md R100), and the
named refusals outside it (R104, R105) and outside the domain of FRAME and BADFRAME (30_encoding.md R58).
-/

namespace Sys2Proof.Machine

/-! ### The frame of a request -/

theorem length_payload_of_ok {r : EncodeRequest} (h : r.ok = true) : r.payload.length = r.len.toNat := by
  obtain ⟨-, hdata⟩ := (ok_iff r).mp h
  exact List.length_take_of_le hdata

/-- The length byte of the frame is the request's `len`: no data byte below it is missing (R105). -/
theorem lengthByte_payload_of_ok {r : EncodeRequest} (h : r.ok = true) : lengthByte r.payload = r.len := by
  rw [lengthByte, length_payload_of_ok h, BitVec.ofNat_toNat, BitVec.setWidth_eq]

theorem frame_of_ok {r : EncodeRequest} (h : r.ok = true) :
    r.frame = [0xAA#8, r.cmd, r.len] ++ r.payload ++ [checksum 0xAA#8 r.cmd r.len r.payload] := by
  rw [EncodeRequest.frame, encodeFrame, frameBytes, frameChecksum, lengthByte_payload_of_ok h]
  rfl

/-- Settles O31: the request is inside the encoder's domain, and its frame is the one written out. -/
theorem encodeEmitsFrame : Obligations.EncodeEmitsFrame := by
  intro s cmd len data hmax hdata
  have hok : EncodeRequest.ok ⟨cmd, len, data⟩ = true := (ok_iff _).mpr ⟨hmax, hdata⟩
  exact ⟨EncodeRequest.frame ⟨cmd, len, data⟩, frame_of_ok hok, runEncode_of_ok hok s⟩

/-! ### Refusals -/

theorem runEncode_of_overLength {r : EncodeRequest} (h : 10 < r.len.toNat) (s : State) :
    runEncode r s = .refused .encodeLengthOverMax :=
  if_pos ((isOverLength_iff r.len).mpr h)

theorem runEncode_of_dataShort {r : EncodeRequest} (hmax : r.len.toNat ≤ 10) (h : r.data.length < r.len.toNat)
    (s : State) : runEncode r s = .refused .encodeDataShort := by
  have hlen : isOverLength r.len = false := (isOverLength_eq_false r.len).mpr hmax
  rw [runEncode, hlen, if_neg Bool.false_ne_true, if_pos h]

theorem execFrame_of_overLength {p : List Byte} (h : 10 < p.length) (c : Byte) (s : State) :
    execFrame c p s = .refused .pseudoUndefined :=
  if_neg (Nat.not_le_of_gt h)

/-- BADFRAME is undefined for too long a payload and for the right checksum (R58). -/
theorem execBadframe_of_undefined {c k : Byte} {p : List Byte} (h : 10 < p.length ∨ k = frameChecksum c p)
    (s : State) : execBadframe c p k s = .refused .pseudoUndefined := by
  refine if_neg fun ⟨hlen, hk⟩ => ?_
  rcases h with hover | hright
  · exact Nat.not_le_of_gt hover hlen
  · exact hk hright

/-- Settles O32: each condition is the one its meaning tests. -/
theorem requestsOutsideTheirDomainRefused : Obligations.RequestsOutsideTheirDomainRefused :=
  ⟨fun s _ _ _ => ⟨fun h => runEncode_of_overLength h s, fun hmax h => runEncode_of_dataShort hmax h s⟩,
    fun s c _ h => execFrame_of_overLength h c s,
    fun s _ _ _ h => execBadframe_of_undefined h s⟩

end Sys2Proof.Machine
end

section
/-!
PROOFS. The response family: ACK and NACK as rows by themselves, and the rows of the decoder step that emit
them (44_response.md R110, R111).
-/

namespace Sys2Proof.Machine

variable {d : Decoder} {b : Byte}

/-! ### The rejecting rows answer with NACK -/

/-- RL.OVER is selected only in `ReadLength` on a byte above 10 (R69). -/
theorem decStep_of_rlOver (h : decodeStep d b = .rlOver b) : decStep d b = (Decoder.reset, [.resp 0x15#8]) := by
  obtain ⟨hs, hover, -⟩ := (lengthOverflowRejected.2 d b b).mp h
  rw [decStep_readLength b hs, if_pos hover]

/-- RK.BAD is selected only where the byte is not the checksum of registers that are not malformed (R75). -/
theorem decStep_of_rkBad (h : decodeStep d b = .rkBad b) : decStep d b = (Decoder.reset, [.resp 0x15#8]) := by
  have hsel := h ▸ rowSelected_decodeStep d b
  simp only [rowSelected, Bool.and_eq_true, beq_iff_eq, Bool.not_eq_true', beq_eq_false_iff_ne] at hsel
  obtain ⟨⟨hs, hm⟩, hb⟩ := hsel
  rw [decStep_readChecksum b hs (readChecksum_bound hs hm), if_neg hb]

/-! ### The rows that emit a response -/

/-- RK.OK is the only transition that emits ACK (R110). -/
theorem ack_mem_decStep_iff : Event.resp 0x06#8 ∈ (decStep d b).2 ↔ decodeStep d b = .rkOk b := by
  constructor
  · intro hmem
    rcases outputs_decStep d b with hout | ⟨hout, -⟩ | ⟨-, hrow, -⟩
    · simp [hout] at hmem
    · simp [hout] at hmem
    · exact hrow
  · intro hrow
    simp [decStep_of_rkOk hrow]

/-- RL.OVER and RK.BAD are the only transitions that emit NACK (R111). -/
theorem nack_mem_decStep_iff :
    Event.resp 0x15#8 ∈ (decStep d b).2 ↔ decodeStep d b = .rlOver b ∨ decodeStep d b = .rkBad b := by
  constructor
  · intro hmem
    rcases outputs_decStep d b with hout | ⟨-, hrow⟩ | ⟨hout, -⟩
    · simp [hout] at hmem
    · exact hrow
    · simp [hout] at hmem
  · rintro (hrow | hrow)
    · simp [decStep_of_rlOver hrow]
    · simp [decStep_of_rkBad hrow]

/-- Settles O30: the two rows emit their byte, and each response has the rows it comes from. -/
theorem responseBytesAndCauses : Obligations.ResponseBytesAndCauses := by
  refine ⟨fun _ => rfl, fun _ => rfl, fun d b => ⟨fun hmem => ?_, fun ⟨hrow, _⟩ => ack_mem_decStep_iff.mpr hrow⟩,
    fun d b => nack_mem_decStep_iff⟩
  have hrow := ack_mem_decStep_iff.mp hmem
  exact ⟨hrow, _, _, _, congrArg Prod.snd (decStep_of_rkOk hrow)⟩

end Sys2Proof.Machine
end

section
/-!
PROOFS. The interface family, the system step: performing a step's events is serving them with the scripted
Dispatcher (45_interfaces.md R123).
-/

namespace Sys2Proof.Machine

/-! ### The encode requests of a dispatch -/

theorem appendFrames_of_ok {rs : List EncodeRequest} (h : ∀ r ∈ rs, r.ok = true) (sink : List Byte) :
    appendFrames rs sink = some (sink ++ framesBytes rs) := by
  induction rs generalizing sink with
  | nil => simp [appendFrames, framesBytes]
  | cons r rs ih =>
    rw [appendFrames, if_pos (h r (.head rs)), ih fun x hx => h x (.tail r hx), List.append_assoc]
    rfl

theorem appendFrames_of_not_ok {rs : List EncodeRequest} (h : ∃ r ∈ rs, r.ok = false) (sink : List Byte) :
    appendFrames rs sink = none := by
  induction rs generalizing sink with
  | nil => simp at h
  | cons r rs ih =>
    rw [appendFrames]
    split_ifs with hr
    · exact ih (by simpa [hr] using h) _
    · rfl

/-! ### The events of a step -/

theorem serveEvents_scripted_dispatch (c n : Byte) (p : List Byte) (es : List Event)
    (env : List (List EncodeRequest)) (sink : List Byte) :
    serveEvents scripted (.dispatch c n p :: es) env sink =
      (appendFrames (env.headD []) sink).bind (serveEvents scripted es env.tail) :=
  serveEvents_dispatch scripted c n p es env sink

/-- Performing events and serving them with the scripted Dispatcher: both complete alike, or both stop. -/
theorem perform_serves (es : List Event) (s : State) :
    (∃ t, perform es s = .next t ∧
        serveEvents scripted es s.replies s.sink = some (t.replies, t.sink)) ∨
      ((∃ x, perform es s = .refused x) ∧ serveEvents scripted es s.replies s.sink = none) := by
  induction es generalizing s with
  | nil => exact .inl ⟨s, rfl, rfl⟩
  | cons e es ih =>
    cases e with
    | resp b => exact ih (s.emit (.resp b))
    | tx f => exact ih (s.emit (.tx f))
    | dispatch c n p =>
      rw [serveEvents_scripted_dispatch, perform]
      rcases dispatch_cases c n p s with ⟨hok, e⟩ | ⟨hbad, e⟩
      · rw [e, appendFrames_of_ok hok]
        simpa using ih (afterDispatch c n p s)
      · refine .inr ⟨?_, by rw [appendFrames_of_not_ok hbad]; rfl⟩
        rcases e with e | e <;> exact ⟨_, by rw [e, andThen_refused]⟩

/-- Settles O50: the events of the step are performed as `SysStep` serves them, after the registers are written. -/
theorem byteStepIsSystemStep : Obligations.ByteStepIsSystemStep := by
  intro s b
  rcases perform_serves (decStep s.dec b).2 (s.withDec (decStep s.dec b).1) with ⟨t, ht, hserve⟩ | ⟨⟨x, hx⟩, hserve⟩
  · have hdeliver : deliverByte b s = .next t := ht
    have hdec : t.dec = (decStep s.dec b).1 := (deliverByte_next b hdeliver).1
    simp only [withDec_replies, withDec_sink] at hserve
    simp only [hdeliver, sysStep, hserve, hdec]
  · have hdeliver : deliverByte b s = .refused x := hx
    simp only [withDec_replies, withDec_sink] at hserve
    simp only [hdeliver, sysStep, hserve]

end Sys2Proof.Machine
end

section
/-!
PROOFS. The interface family, the clock edge (45_interfaces.md R125 to R128): what each of its parts leaves
unchanged, what keeps a step's outputs pending, and what an edge does to the sequence on the transmit port and to a
dispatch.
-/

namespace Sys2Proof.Machine

/-! ### The frame of each part of an edge -/

section Frames

variable (taken : Bool) (pins : Pins) (s : State)

@[simp] theorem txEdge_frame :
    (txEdge pins s).queue = s.queue ∧ (txEdge pins s).replies = s.replies ∧
      (txEdge pins s).port.txOfStep = s.port.txOfStep ∧ (txEdge pins s).port.dispShown = s.port.dispShown := by
  rcases txEdge_cases pins s with ⟨-, e⟩ | ⟨_, _, -, -, -, e⟩ <;> rw [e] <;> exact ⟨rfl, rfl, rfl, rfl⟩

@[simp] theorem dispEdge_frame :
    (dispEdge pins s).queue = s.queue ∧ (dispEdge pins s).replies = s.replies ∧ (dispEdge pins s).sink = s.sink := by
  rcases dispEdge_cases pins s with ⟨-, e⟩ | ⟨_, _, _, _, -, -, ⟨-, e⟩ | ⟨-, e⟩⟩ <;> rw [e] <;>
    exact ⟨rfl, rfl, rfl⟩

@[simp] theorem encEdge_frame :
    (encEdge taken pins s).queue = s.queue ∧ (encEdge taken pins s).replies = s.replies ∧
      (encEdge taken pins s).sink = s.sink ∧ (encEdge taken pins s).port.dispShown = s.port.dispShown := by
  cases taken <;> exact ⟨rfl, rfl, rfl, rfl⟩

@[simp] theorem decEdge_frame :
    (decEdge taken pins s).queue = s.queue ∧ (decEdge taken pins s).replies = s.replies ∧
      (decEdge taken pins s).sink = s.sink ∧ (decEdge taken pins s).port.tx = s.port.tx := by
  unfold decEdge
  split_ifs <;> exact ⟨rfl, rfl, rfl, rfl⟩

@[simp] theorem respEdge_frame :
    (respEdge s).queue = s.queue ∧ (respEdge s).replies = s.replies ∧ (respEdge s).sink = s.sink ∧
      (respEdge s).port.dispShown = s.port.dispShown := by
  rcases respEdge_cases s with ⟨_, _, -, -, e⟩ | ⟨-, e⟩ <;> rw [e] <;> exact ⟨rfl, rfl, rfl, rfl⟩

theorem decEdge_dec :
    (decEdge taken pins s).dec =
      if pins.rst then Decoder.reset else if taken then (decStep s.dec pins.rxData).1 else s.dec := by
  unfold decEdge
  split_ifs <;> rfl

/-- With no byte delivered only reset reaches the decoder. -/
theorem decEdge_false_eq : decEdge false pins s = if pins.rst then s.withDec Decoder.reset else s := by
  rw [decEdge, if_neg Bool.false_ne_true]

end Frames

section Edge

variable {pins : Pins} {s t : State}

/-! ### Signals -/

theorem rxReady_iff {p : Port} : rxReady pins p = true ↔ pins.rst = false ∧ p.stepPending = false := by
  simp [rxReady]

/-- No request is granted in a cycle that delivers a byte (log 17). -/
theorem rxFires_of_encReady {p : Port} (h : encReady pins p = true) : rxFires pins p = false := by
  simp only [encReady, Bool.and_eq_true, Bool.not_eq_true'] at h
  exact h.2

/-! ### An edge that answers a next state -/

theorem clockEdge_eq_next (h : clockEdge pins s = .next t) :
    (pins.rst = false ∨ s.port.stepPending = false) ∧
      t = respEdge (decEdge (rxFires pins s.port) pins
        (encEdge (pins.encValid && encReady pins s.port) pins (dispEdge pins (txEdge pins s)))) := by
  rcases clockEdge_cases pins s with ⟨-, -, e⟩ | ⟨-, -, -, -, e⟩ | ⟨hrst, -, e⟩ <;> rw [e] at h <;> cases h
  exact ⟨hrst, rfl⟩

/-- While a step's outputs are pending an edge leaves the decoder out. -/
theorem clockEdge_of_pending (h : clockEdge pins s = .next t) (hp : s.port.stepPending = true) :
    t = respEdge (encEdge (pins.encValid && encReady pins s.port) pins (dispEdge pins (txEdge pins s))) := by
  obtain ⟨hrst, rfl⟩ := clockEdge_eq_next h
  have hrst : pins.rst = false := by simpa [hp] using hrst
  have hrx : rxFires pins s.port = false := by simp [rxFires, rxReady, hp]
  rw [hrx, decEdge_false_eq, hrst, if_neg Bool.false_ne_true]

theorem clockEdge_dec (h : clockEdge pins s = .next t) :
    t.dec = if pins.rst then Decoder.reset
      else if rxFires pins s.port then (decStep s.dec pins.rxData).1 else s.dec := by
  obtain ⟨-, rfl⟩ := clockEdge_eq_next h
  simp [decEdge_dec]

theorem clockEdge_outside (h : clockEdge pins s = .next t) : t.queue = s.queue ∧ t.replies = s.replies := by
  obtain ⟨-, rfl⟩ := clockEdge_eq_next h
  simp

/-! ### Outputs come to be pending -/

theorem stepPending_txEdge (h : s.port.stepPending = false) : (txEdge pins s).port.stepPending = false := by
  obtain ⟨hout, htx⟩ := stepPending_eq_false.mp h
  exact stepPending_eq_false.mpr ⟨by simpa using hout, fun hstep => txEdge_tx_of_nil (htx (by simpa using hstep))⟩

theorem stepPending_dispEdge (h : s.port.stepPending = false) : (dispEdge pins s).port.stepPending = false := by
  rwa [dispEdge_of_out_nil pins (stepPending_eq_false.mp h).1]

/-- A requested frame on the transmit port is no output of a step (R126). -/
theorem stepPending_encEdge {taken : Bool} (h : s.port.stepPending = false) :
    (encEdge taken pins s).port.stepPending = false := by
  cases taken with
  | false => exact h
  | true => exact stepPending_eq_false.mpr ⟨(stepPending_eq_false.mp h).1, fun hstep => absurd hstep Bool.false_ne_true⟩

theorem stepPending_decEdge {taken : Bool} (h : s.port.stepPending = false) :
    (decEdge taken pins s).port.stepPending = true ↔
      pins.rst = false ∧ taken = true ∧ (decStep s.dec pins.rxData).2 ≠ [] := by
  unfold decEdge
  split_ifs with hrst htaken
  · simp [h, hrst]
  · obtain ⟨-, htx⟩ := stepPending_eq_false.mp h
    simpa [Port.stepPending, hrst, htaken] using fun hstep hne => absurd (htx hstep) hne
  · simp [h, htaken]

theorem clockEdge_raises_pending (h : clockEdge pins s = .next t) (hp : s.port.stepPending = false) :
    t.port.stepPending = true ↔
      pins.rxValid = true ∧ rxReady pins s.port = true ∧ (decStep s.dec pins.rxData).2 ≠ [] := by
  obtain ⟨-, rfl⟩ := clockEdge_eq_next h
  rw [stepPending_respEdge,
    stepPending_decEdge (stepPending_encEdge (stepPending_dispEdge (stepPending_txEdge hp))), rxFires_iff, rxReady_iff]
  simp only [encEdge_dec, dispEdge_dec, txEdge_dec]
  tauto

/-! ### Outputs cease to be pending -/

theorem stepPending_of_out_ne_nil {p : Port} (h : p.out ≠ []) : p.stepPending = true := by
  simp [Port.stepPending, h]

/-- Where a dispatch ends, its response is still pending. -/
theorem dispEdge_out_ne_nil (hlegal : PendingLegal s.port.out) (h : s.port.out ≠ []) :
    (dispEdge pins s).port.out ≠ [] := by
  rcases dispEdge_cases pins s with ⟨-, e⟩ | ⟨c, n, p, es, hout, -, ⟨-, e⟩ | ⟨-, e⟩⟩ <;> rw [e]
  · exact h
  · have hes : es = [.resp Config.ack] := (hout ▸ hlegal).tail_of_dispatch
    simp [hes]
  · exact h

/-- A sequence is through exactly when its byte with `tx_last` is transferred. -/
theorem txEdge_tx_eq_nil_iff (h : s.port.tx ≠ []) :
    (txEdge pins s).port.tx = [] ↔ pins.txReady = true ∧ ∃ b, txSignal pins s.port = some (b, true) := by
  rcases txEdge_cases pins s with ⟨hidle, e⟩ | ⟨b, rest, -, hsignal, hready, e⟩ <;> rw [e]
  · rcases hidle with hnone | hready
    · simp [h, hnone]
    · simp [h, hready]
  · simp [hsignal, hready]

theorem clockEdge_clears_pending (hinv : s.Inv) (h : clockEdge pins s = .next t) (hp : s.port.stepPending = true) :
    t.port.stepPending = false ↔
      s.port.out = [] ∧ pins.txReady = true ∧ ∃ b, txSignal pins s.port = some (b, true) := by
  rw [clockEdge_of_pending h hp, stepPending_respEdge]
  by_cases hout : s.port.out = []
  · have ⟨hstep, htx⟩ : s.port.txOfStep = true ∧ s.port.tx ≠ [] := by simpa [Port.stepPending, hout] using hp
    have hready : encReady pins s.port = false := Bool.eq_false_iff.mpr fun hr => htx (encReady_tx pins hr)
    rw [hready, Bool.and_false, encEdge_false, dispEdge_of_out_nil pins (by simpa using hout), stepPending_eq_false]
    simp [hout, hstep, txEdge_tx_eq_nil_iff htx]
  · have hne : (dispEdge pins (txEdge pins s)).port.out ≠ [] :=
      dispEdge_out_ne_nil (by simpa using hinv.out) (by simpa using hout)
    rw [stepPending_of_out_ne_nil (by simpa using hne)]
    simp [hout]

/-! ### The sequence on the transmit port -/

/-- The byte presented is the front of the sequence, `tx_last` its being the whole of it. -/
theorem txEdge_of_transfer {b : Byte} {last : Bool} (hsignal : txSignal pins s.port = some (b, last))
    (hready : pins.txReady = true) :
    ∃ rest, s.port.tx = b :: rest ∧ last = rest.isEmpty ∧ txEdge pins s = s.sent b rest := by
  obtain ⟨rest, hseq, -, hlast⟩ := (txSignal_eq_some pins).mp hsignal
  refine ⟨rest, hseq, hlast, ?_⟩
  simp only [txEdge, hsignal, hready, hseq, if_true, List.tail_cons]
  rfl

theorem txEdge_of_no_transfer (h : txSignal pins s.port = none ∨ pins.txReady = false) : txEdge pins s = s := by
  rcases txEdge_cases pins s with ⟨-, e⟩ | ⟨_, _, -, hsignal, hready, -⟩
  · exact e
  · simp [hsignal, hready] at h

theorem respEdge_of_tx_ne_nil (h : s.port.tx ≠ []) : respEdge s = s := by
  rcases respEdge_cases s with ⟨_, _, -, htx, -⟩ | ⟨-, e⟩
  · exact absurd htx h
  · exact e

/-- Only the transmit port hands bytes to the sink. -/
theorem clockEdge_sink (h : clockEdge pins s = .next t) : t.sink = (txEdge pins s).sink := by
  obtain ⟨-, rfl⟩ := clockEdge_eq_next h
  simp

/-- No other sequence takes the place of one that is not through. -/
theorem clockEdge_tx_of_ne_nil (h : clockEdge pins s = .next t) (hne : (txEdge pins s).port.tx ≠ []) :
    t.port.tx = (txEdge pins s).port.tx := by
  obtain ⟨-, rfl⟩ := clockEdge_eq_next h
  have hready : encReady pins s.port = false :=
    Bool.eq_false_iff.mpr fun hr => hne (txEdge_tx_of_nil (encReady_tx pins hr))
  rw [hready, Bool.and_false, encEdge_false, respEdge_of_tx_ne_nil (by simpa using hne)]
  simp

/-! ### The dispatch at the head of the pending outputs -/

section Dispatch

variable {c n : Byte} {p : List Byte} {es : List Event}

theorem dispSignal_of_shown (hout : s.port.out = .dispatch c n p :: es) (hshown : s.port.dispShown = true) :
    dispSignal pins s.port = some (c, n, busOf p) := by
  simp [dispSignal, hout, hshown]

theorem dispShown_of_dispSignal_none (hout : s.port.out = .dispatch c n p :: es)
    (hnone : dispSignal pins s.port = none) : s.port.dispShown = false :=
  Bool.eq_false_iff.mpr fun hshown => by simp [dispSignal_of_shown hout hshown] at hnone

@[simp] theorem dispSignal_txEdge (pins : Pins) (s : State) :
    dispSignal pins (txEdge pins s).port = dispSignal pins s.port := by
  simp [dispSignal]

/-- A response that became the head of what is pending stays there, or the transmit port takes it up. -/
theorem respEdge_out (s : State) :
    (respEdge s).port.out = s.port.out ∨
      ∃ b rest, s.port.out = .resp b :: rest ∧ (respEdge s).port.out = rest ∧ (respEdge s).port.tx = [b] := by
  rcases respEdge_cases s with ⟨b, rest, hout, -, e⟩ | ⟨-, e⟩ <;> rw [e]
  · exact .inr ⟨b, rest, hout, rfl, rfl⟩
  · exact .inl rfl

/-- All an edge can do to a dispatch: not present it, present it without an answer, or have it answered. -/
theorem clockEdge_dispatch_cases (hout : s.port.out = .dispatch c n p :: es) (h : clockEdge pins s = .next t) :
    (dispSignal pins s.port = none ∧ t.port.out = s.port.out ∧ t.port.dispShown = false) ∨
    (dispSignal pins s.port = some (c, n, busOf p) ∧
      ((pins.dispDone = false ∧ t.port.out = s.port.out ∧ t.port.dispShown = true) ∨
        (pins.dispDone = true ∧ t.port.dispShown = false ∧
          (t.port.out = es ∨ ∃ b rest, es = .resp b :: rest ∧ t.port.out = rest ∧ t.port.tx = [b])))) := by
  rw [clockEdge_of_pending h (stepPending_of_out_ne_nil (by simp [hout]))]
  rcases dispEdge_cases pins (txEdge pins s) with ⟨hnone, e⟩ | ⟨c', n', p', es', hout', hsome, hanswer⟩
  · rw [dispSignal_txEdge] at hnone
    rw [e, respEdge_of_dispatch (by simpa using hout)]
    exact .inl ⟨hnone, by simp, by simpa using dispShown_of_dispSignal_none hout hnone⟩
  · rw [txEdge_out, hout] at hout'
    cases hout'
    rw [dispSignal_txEdge] at hsome
    refine .inr ⟨hsome, ?_⟩
    rcases hanswer with ⟨hdone, e⟩ | ⟨hdone, e⟩ <;> rw [e]
    · refine .inr ⟨hdone, by simp, ?_⟩
      simpa using respEdge_out (encEdge (pins.encValid && encReady pins s.port) pins _)
    · rw [respEdge_of_dispatch (by simpa using hout)]
      exact .inl ⟨hdone, by simp, by simp⟩

end Dispatch

/-! ### A request granted outside a dispatch -/

/-- The port takes the frame up as its next sequence; the decoder is left to `rst`. -/
theorem clockEdge_of_granted (hvalid : pins.encValid = true) (hready : encReady pins s.port = true)
    (hout : s.port.out = []) (hlen : pins.encLen.toNat ≤ 10) :
    clockEdge pins s = .next (decEdge false pins (encEdge true pins s)) := by
  have htx := encReady_tx pins hready
  have hfree : s.port.stepPending = false := stepPending_eq_false.mpr ⟨hout, fun _ => htx⟩
  have hout' : (decEdge false pins (encEdge true pins s)).port.out = [] := by
    rw [decEdge_false_eq]
    split_ifs <;> exact hout
  rcases clockEdge_cases pins s with ⟨-, hp, -⟩ | ⟨-, -, -, hover, -⟩ | ⟨-, -, e⟩
  · simp [hfree] at hp
  · omega
  · rw [e, txEdge_of_tx_nil pins htx, dispEdge_of_out_nil pins hout, rxFires_of_encReady hready, hvalid, hready,
      Bool.and_self, respEdge_of_out_nil hout']

end Edge

/-! ### The obligations -/

/-- Settles O55: the registers by `clockEdge_dec`, the pending outputs by the two lemmas on when they come and go. -/
theorem portDeliversOnHandshake : Obligations.PortDeliversOnHandshake := by
  refine ⟨fun pins s => rxReady_iff, fun pins s t h => ?_, fun pins s t h hp => clockEdge_raises_pending h hp,
    fun pins s t hinv h hp => clockEdge_clears_pending hinv h hp⟩
  have hdec := clockEdge_dec h
  refine ⟨fun hrst => by simpa [hrst] using hdec, fun hvalid hready => ?_, fun hrst hno => ?_, clockEdge_outside h⟩
  · obtain ⟨hrst, hfree⟩ := rxReady_iff.mp hready
    simpa [hrst, (rxFires_iff pins).mpr ⟨hvalid, hrst, hfree⟩] using hdec
  · have hfires : rxFires pins s.port = false := Bool.and_eq_false_iff.mpr hno
    simpa [hrst, hfires] using hdec

/-- Settles O56: the three outcomes are those of `clockEdge_cases`, the granted request is `clockEdge_of_granted`. -/
theorem clockEdgeCompletes : Obligations.ClockEdgeCompletes := by
  refine ⟨fun pins s => ⟨?_, ?_, ?_, encReady_iff pins⟩, fun pins s hvalid hready hout hlen => ?_,
    fun v i j hi hj => ⟨length_busBytes v, getLsbD_busBytes v hi hj⟩⟩
  · intro hrst hp
    rcases clockEdge_cases pins s with ⟨-, -, e⟩ | ⟨hno, -⟩ | ⟨hno, -⟩
    · exact e
    all_goals simp [hrst, hp] at hno
  · intro hno hvalid hready hover
    rcases clockEdge_cases pins s with ⟨hrst, hp, -⟩ | ⟨-, -, -, -, e⟩ | ⟨-, hlen, -⟩
    · simp [hrst, hp] at hno
    · exact e
    · exact absurd (hlen hvalid hready) (Nat.not_le_of_gt hover)
  · intro hno hgrant
    rcases clockEdge_cases pins s with ⟨hrst, hp, -⟩ | ⟨-, hvalid, hready, hover, -⟩ | ⟨-, -, e⟩
    · simp [hrst, hp] at hno
    · rcases hgrant with h | h | h
      · simp [hvalid] at h
      · exact absurd (hready.symm.trans h) Bool.noConfusion
      · exact absurd h (Nat.not_le_of_gt hover)
    · exact ⟨_, e⟩
  · refine ⟨pins.request.frame, _, frame_of_ok (ok_request pins hlen),
      clockEdge_of_granted hvalid hready hout hlen, ?_⟩
    rw [decEdge_false_eq]
    split_ifs <;> exact ⟨rfl, hout, rfl, rfl, rfl⟩

/-- Settles O57: the transmit part of the edge transfers the byte, the other parts leave the sequence whole. -/
theorem portSequencesAreContiguous : Obligations.PortSequencesAreContiguous := by
  intro pins s t h
  have hsink := clockEdge_sink h
  have htx := clockEdge_tx_of_ne_nil h
  refine ⟨fun b last hsignal hready => ?_, fun hidle => ?_⟩
  · obtain ⟨rest, hseq, rfl, e⟩ := txEdge_of_transfer hsignal hready
    rw [e] at hsink htx
    refine ⟨hsink, by simp [hseq], by simp [hseq], fun hmore => ?_⟩
    rw [hseq]
    exact htx (List.isEmpty_eq_false_iff.mp hmore)
  · rw [txEdge_of_no_transfer hidle] at hsink htx
    exact ⟨hsink, htx⟩

/-- Settles O58: the cases of `clockEdge_dispatch_cases`; a dispatch once shown is signalled whatever the pins. -/
theorem portHoldsResponseUntilDispatchDone : Obligations.PortHoldsResponseUntilDispatchDone := by
  refine ⟨fun pins s t c n p es hout h => ?_, fun p i j hi hj => getLsbD_busOf p hi hj⟩
  refine ⟨dispSignal_of_shown hout, ?_⟩
  dsimp only [Port.signals]
  rcases clockEdge_dispatch_cases hout h with
    ⟨hnone, hkept, hhidden⟩ | ⟨hsome, ⟨hdone, hkept, hshown⟩ | ⟨hdone, hhidden, hbehind⟩⟩
  · exact ⟨fun _ => ⟨hkept, fun hne => absurd hnone hne⟩, fun _ => ⟨hkept, hhidden⟩, fun _ hne => absurd hnone hne⟩
  · refine ⟨fun _ => ⟨hkept, fun _ => ⟨hsome, hshown, fun later => ?_⟩⟩, ?_, ?_⟩
    · exact dispSignal_of_shown (hkept.trans hout) hshown
    · simp [hsome]
    · simp [hdone]
  · exact ⟨by simp [hdone], by simp [hsome], fun _ _ => ⟨hhidden, hbehind⟩⟩

end Sys2Proof.Machine
end

section
/-!
PROOFS. The interface family, a rejection through the ports against the transaction (45_interfaces.md R126, R127,
20_memory.md R35): the edge that takes the byte, then the edges that finish a frame in transmission, the response
taken up in the last of them, then the edge that transmits it.
-/

namespace Sys2Proof.Machine

variable {s : State} {b : Byte}

/-! ### The edges of the schedule -/

theorem txEdge_receive (b : Byte) (s : State) : txEdge (Pins.receive b) s = s := by
  rcases txEdge_cases (Pins.receive b) s with ⟨-, e⟩ | ⟨_, _, -, -, hready, -⟩
  · exact e
  · exact absurd hready Bool.false_ne_true

/-- A byte received with no outputs pending; a response it makes is taken up at once where the port is free. -/
theorem clockEdge_receive_of_free (hfree : s.port.stepPending = false) :
    clockEdge (Pins.receive b) s = .next (respEdge (s.received b)) := by
  have hfires : rxFires (Pins.receive b) s.port = true := (rxFires_iff _).mpr ⟨rfl, rfl, hfree⟩
  rw [clockEdge_of_ok s rfl fun h => absurd h Bool.false_ne_true, txEdge_receive,
    dispEdge_of_out_nil _ (stepPending_eq_false.mp hfree).1, hfires]
  rfl

theorem dispEdge_of_response (pins : Pins) {es : List Event} (h : s.port.out = .resp b :: es) :
    dispEdge pins s = s := by
  rcases dispEdge_cases pins s with ⟨-, e⟩ | ⟨_, _, _, _, hout, -, -⟩
  · exact e
  · simp [h] at hout

/-- A transmit edge with a response waiting: the byte is taken, and the response moves up if it was the last. -/
theorem clockEdge_transmit_of_response {x : Byte} {f : List Byte} {es : List Event}
    (hout : s.port.out = .resp b :: es) (htx : s.port.tx = x :: f) :
    clockEdge Pins.transmit s = .next (respEdge (s.sent x f)) := by
  have htaken : txEdge Pins.transmit s = s.sent x f := by
    simp [txEdge, txSignal, htx, Pins.transmit, State.sent]
  rw [clockEdge_of_outputs s rfl rfl rfl, htaken, dispEdge_of_response (s := s.sent x f) _ hout]

/-- A frame in transmission goes out byte by byte ahead of the response that waits for the port. -/
theorem steps_transmit_response {f : List Byte} {es : List Event} (q : List Stimulus) {s : State}
    (hout : s.port.out = .resp b :: es) (htx : s.port.tx = f) :
    steps f.length ((respEdge s).withQueue (List.replicate f.length (.cycle Pins.transmit) ++ q)) =
      .next ((respEdge s.finishFrame).withQueue q) := by
  induction f generalizing s with
  | nil =>
    rw [finishFrame_of_tx_nil htx]
    rfl
  | cons x f ih =>
    have hwhole : (s.sent x f).finishFrame = s.finishFrame := by simp [State.sent, State.finishFrame, htx]
    rw [respEdge_of_tx_ne_nil (by simp [htx]), List.length_cons, List.replicate_succ, List.cons_append,
      steps_cycle f.length _ (clockEdge_transmit_of_response hout htx), ← hwhole]
    exact ih (s := s.sent x f) hout rfl

/-! ### The whole rejection -/

/-- What a rejected byte leaves: the frame in transmission and NACK on the sink, the ports idle. -/
structure Rejected (s t : State) (b : Byte) (rest : List Stimulus) : Prop where
  dec : t.dec = (decStep s.dec b).1
  sink : t.sink = s.sink ++ s.port.tx ++ [0x15#8]
  log : t.log = s.log ++ [.resp 0x15#8]
  queue : t.queue = rest
  port : t.port.busy = false

/-- NACK on the transmit port, what was in transmission before it on the sink. -/
def State.rejecting (s : State) (b : Byte) : State :=
  { s with
    dec := (decStep s.dec b).1
    sink := s.sink ++ s.port.tx
    log := s.log ++ [.resp 0x15#8]
    port := { tx := [0x15#8], txOfStep := true, out := [], dispShown := s.port.dispShown } }

theorem respEdge_received_finishFrame (hrej : (decStep s.dec b).2 = [.resp 0x15#8]) :
    respEdge (s.received b).finishFrame = s.rejecting b := by
  simp [respEdge, State.received, State.finishFrame, State.rejecting, dispatchesOf, hrej]

variable (rest : List Stimulus)

theorem rejected_ports (hfree : s.port.stepPending = false) (hrej : (decStep s.dec b).2 = [.resp 0x15#8]) :
    ∃ t, steps (s.port.tx.length + 2)
        (s.withQueue (.cycle (Pins.receive b) ::
          (List.replicate (s.port.tx.length + 1) (.cycle Pins.transmit) ++ rest))) = .next t ∧
      Rejected s t b rest := by
  refine ⟨(s.rejecting b).finishFrame.withQueue rest, ?_, rfl, rfl, rfl, rfl, rfl⟩
  have hframe := steps_transmit_response (s := s.received b) (f := s.port.tx)
    (List.replicate 1 (.cycle Pins.transmit) ++ rest) hrej rfl
  rw [steps_cycle (s.port.tx.length + 1) _ (clockEdge_receive_of_free hfree), steps_add, List.replicate_add,
    List.append_assoc, hframe, andThen_next, respEdge_received_finishFrame hrej]
  exact steps_transmit rest (s := s.rejecting b) (.inl rfl) rfl

theorem rejected_transaction (hfree : s.port.stepPending = false)
    (hrej : (decStep s.dec b).2 = [.resp 0x15#8]) :
    ∃ u, step (s.withQueue (.deliver (.byte b) :: rest)) = .next u ∧ Rejected s u b rest := by
  have hdeliver : deliverByte b (s.finishFrame.withQueue rest) =
      .next (((s.finishFrame.withQueue rest).withDec (decStep s.dec b).1).emit (.resp 0x15#8)) := by
    simp only [deliverByte, withQueue_dec, finishFrame_dec, hrej, perform_resp]
  exact ⟨_, (step_byte (s := s.withQueue _) rfl hfree).trans hdeliver, rfl, rfl, rfl, rfl,
    busy_eq_false.mpr ⟨(stepPending_eq_false.mp hfree).1, rfl⟩⟩

/-- Settles O59: the ports and the transaction both leave what `Rejected` says. -/
theorem portRejectionMatchesTransaction : Obligations.PortRejectionMatchesTransaction := by
  intro s b rest hfree hrej
  obtain ⟨t, ht, htdone⟩ := rejected_ports rest hfree hrej
  obtain ⟨u, hu, hudone⟩ := rejected_transaction rest hfree hrej
  exact ⟨t, u, ht, hu, htdone.sink, htdone.dec.trans hudone.dec.symm, htdone.sink.trans hudone.sink.symm,
    htdone.log.trans hudone.log.symm, htdone.queue.trans hudone.queue.symm, htdone.port⟩

end Sys2Proof.Machine
end

section
/-!
PROOFS. The properties family, the layer under it: the decoder's run over a stream in parts (46_properties.md R142),
over bytes without the marker value (R138), and over the bytes of one frame with any last byte (R135, R136).
-/

namespace Sys2Proof.Machine

/-! ### A stream in parts -/

/-- R142, the composition of streams. -/
theorem decRun_append (d : Decoder) (u v : List Byte) :
    decRun d (u ++ v) = ((decRun (decRun d u).1 v).1, (decRun d u).2 ++ (decRun (decRun d u).1 v).2) := by
  induction u generalizing d with
  | nil => rfl
  | cons b u ih => rw [List.cons_append, decRun_cons, decRun_cons, ih, List.append_assoc]

theorem decRun_append_of_silent {d d' : Decoder} {u : List Byte} (h : decRun d u = (d', [])) (v : List Byte) :
    decRun d (u ++ v) = decRun d' v := by
  rw [decRun_append, h]
  rfl

theorem decRun_cons_of_silent {d d' : Decoder} {b : Byte} (h : decStep d b = (d', [])) (v : List Byte) :
    decRun d (b :: v) = decRun d' v := by
  rw [decRun_cons, h]
  rfl

theorem decRun_singleton (d : Decoder) (b : Byte) : decRun d [b] = decStep d b := by
  rw [decRun_cons, decRun_nil, List.append_nil]

theorem decStep_reset_of_ne {b : Byte} (h : b ≠ 0xAA#8) : decStep Decoder.reset b = (Decoder.reset, []) := by
  rw [decStep_waitStart b rfl, if_neg h]

/-- R138: bytes without the marker value leave the reset state as it is. -/
theorem decRun_reset_of_markerFree {g : List Byte} (h : ∀ b ∈ g, b ≠ 0xAA#8) :
    decRun Decoder.reset g = (Decoder.reset, []) := by
  induction g with
  | nil => rfl
  | cons b g ih =>
    rw [decRun_cons_of_silent (decStep_reset_of_ne (h b (.head g)))]
    exact ih fun x hx => h x (.tail b hx)

/-! ### Inside a frame -/

/-- The registers after the marker, the command `c`, the length byte `n` and the payload bytes `q` (R21): more
payload bytes are awaited, or the checksum byte. -/
structure Decoder.Received (d : Decoder) (c n : Byte) (q : List Byte) : Prop where
  startMarker : d.startMarker = 0xAA#8
  commandId : d.commandId = c
  payloadLength : d.payloadLength = n
  index : d.index.toNat = q.length
  stored : Memory.bytesBelow d.payload q.length = q
  wf : Memory.wf d.payload = true
  length_le : q.length ≤ n.toNat
  max : n.toNat ≤ 10
  state : d.state = if q.length = n.toNat then .readChecksum else .readPayload

theorem Decoder.Received.state_cases {d : Decoder} {c n : Byte} {q : List Byte} (h : d.Received c n q) :
    d.state = .readPayload ∨ d.state = .readChecksum := by
  rw [h.state]
  split_ifs
  · exact .inr rfl
  · exact .inl rfl

/-- The registers after the marker and the command byte. -/
def lengthAwaited (c : Byte) : Decoder :=
  { Decoder.reset with startMarker := 0xAA#8, commandId := c, state := .readLength }

theorem decRun_marker_command (c : Byte) (v : List Byte) :
    decRun Decoder.reset (0xAA#8 :: c :: v) = decRun (lengthAwaited c) v := rfl

theorem received_length (c : Byte) {n : Byte} (h : n.toNat ≤ 10) :
    ∃ d, decStep (lengthAwaited c) n = (d, []) ∧ d.Received c n [] := by
  rw [decStep_readLength n rfl, if_neg (Nat.not_lt.mpr h)]
  split_ifs with h0
  · exact ⟨_, rfl, rfl, rfl, h0.symm, rfl, rfl, rfl, Nat.zero_le _, h, by simp [h0]⟩
  · have hpos : 0 ≠ n.toNat := fun e => h0 (BitVec.eq_of_toNat_eq e.symm)
    exact ⟨_, rfl, rfl, rfl, rfl, rfl, rfl, rfl, Nat.zero_le _, h, (if_neg hpos).symm⟩

theorem received_payloadByte {d : Decoder} {c n : Byte} {q : List Byte} (b : Byte) (h : d.Received c n q)
    (hmore : q.length < n.toNat) : ∃ d', decStep d b = (d', []) ∧ d'.Received c n (q ++ [b]) := by
  obtain ⟨hsm, hcmd, hlen, hidx, hstored, hwf, -, hmax, hst⟩ := h
  rw [if_neg hmore.ne] at hst
  refine ⟨_, decStep_readPayload b hst (by rwa [hlen]) (by rwa [hidx, hlen]), hsm, hcmd, hlen, ?_, ?_, ?_, ?_,
    hmax, ?_⟩
  · rw [List.length_append, toNat_index_succ _ (by omega), hidx, List.length_singleton]
  · rw [List.length_append, List.length_singleton, bytesBelow_succ, hidx, bytesBelow_writeByte b hwf le_rfl, hstored,
      readByte_writeByte _ b _ hwf, if_pos rfl]
  · exact wf_writeByte b hwf (by rw [maxPayload_eq]; omega)
  · simpa using hmore
  · simp [hidx, hlen]

theorem received_payload {d : Decoder} {c n : Byte} {q : List Byte} (r : List Byte) (h : d.Received c n q)
    (hfit : q.length + r.length ≤ n.toNat) : ∃ d', decRun d r = (d', []) ∧ d'.Received c n (q ++ r) := by
  induction r generalizing d q with
  | nil => exact ⟨d, rfl, by rwa [List.append_nil]⟩
  | cons b r ih =>
    rw [List.length_cons] at hfit
    obtain ⟨d₁, hstep, h₁⟩ := received_payloadByte b h (by omega)
    obtain ⟨d₂, hrun, h₂⟩ := ih h₁ (by simp; omega)
    exact ⟨d₂, by rw [decRun_cons_of_silent hstep, hrun], by simpa using h₂⟩

/-- The marker, a command, a legal length byte and no more payload bytes than it says: nothing is emitted. -/
theorem received_of_reset (c : Byte) {n : Byte} {q : List Byte} (hn : n.toNat ≤ 10) (hq : q.length ≤ n.toNat) :
    ∃ d, decRun Decoder.reset (0xAA#8 :: c :: n :: q) = (d, []) ∧ d.Received c n q := by
  obtain ⟨d₁, hstep, h₁⟩ := received_length c hn
  obtain ⟨d₂, hrun, h₂⟩ := received_payload q h₁ (by simpa using hq)
  exact ⟨d₂, by rw [decRun_marker_command, decRun_cons_of_silent hstep, hrun], h₂⟩

/-- What the checksum byte does (R74, R75). -/
theorem decStep_of_received {d : Decoder} {c n : Byte} {q : List Byte} (k : Byte) (h : d.Received c n q)
    (hall : q.length = n.toNat) :
    decStep d k =
      (Decoder.reset,
        if k = checksum 0xAA#8 c n q then [.dispatch c n q, .resp 0x06#8] else [.resp 0x15#8]) := by
  have hst : d.state = .readChecksum := by rw [h.state, if_pos hall]
  have hinUse : d.payloadInUse = q := by rw [Decoder.payloadInUse, h.payloadLength, ← hall, h.stored]
  have hsum : d.checksum = checksum 0xAA#8 c n q := by
    rw [Decoder.checksum, h.startMarker, h.commandId, h.payloadLength, hinUse]
  rw [decStep_readChecksum k hst (h.payloadLength ▸ h.max), hsum, hinUse, h.commandId, h.payloadLength]
  split_ifs <;> rfl

/-! ### A whole frame -/

theorem toNat_lengthByte {p : List Byte} (h : p.length ≤ 10) : (lengthByte p).toNat = p.length := by
  rw [lengthByte, BitVec.toNat_ofNat]
  omega

/-- A frame with any command, length byte and payload of that length, and any last byte. -/
theorem decRun_frame (c k : Byte) {n : Byte} {p : List Byte} (hn : n.toNat ≤ 10) (hp : p.length = n.toNat) :
    decRun Decoder.reset (0xAA#8 :: c :: n :: (p ++ [k])) =
      (Decoder.reset,
        if k = checksum 0xAA#8 c n p then [.dispatch c n p, .resp 0x06#8] else [.resp 0x15#8]) := by
  obtain ⟨d, hrun, h⟩ := received_of_reset c hn hp.le
  rw [← decStep_of_received k h hp, ← decRun_singleton, ← decRun_append_of_silent hrun]
  rfl

theorem decRun_frameBytes (c k : Byte) {p : List Byte} (h : p.length ≤ 10) :
    decRun Decoder.reset (frameBytes c p k) =
      (Decoder.reset,
        if k = frameChecksum c p then [.dispatch c (lengthByte p) p, .resp 0x06#8] else [.resp 0x15#8]) :=
  decRun_frame c k (by rwa [toNat_lengthByte h]) (toNat_lengthByte h).symm

/-- R144, with any last byte: before it nothing is emitted, and after the marker the decoder is in flight. -/
theorem decRun_take_frameBytes (c k : Byte) {p : List Byte} {m : Nat} (hp : p.length ≤ 10) (hm : m < 4 + p.length) :
    (decRun Decoder.reset ((frameBytes c p k).take m)).2 = [] ∧
      (0 < m → (decRun Decoder.reset ((frameBytes c p k).take m)).1.state ≠ .waitStart) := by
  match m with
  | 0 | 1 | 2 => exact ⟨rfl, nofun⟩
  | j + 3 =>
    have hn := toNat_lengthByte hp
    have hbytes : (frameBytes c p k).take (j + 3) = 0xAA#8 :: c :: lengthByte p :: p.take j := by
      rw [← List.take_append_of_le_length (l₂ := [k]) (by omega : j ≤ p.length)]
      rfl
    obtain ⟨d, hrun, h⟩ := received_of_reset c (q := p.take j) (hn ▸ hp) (hn ▸ List.length_take_le' j p)
    rw [hbytes, hrun]
    exact ⟨rfl, fun _ => by rcases h.state_cases with e | e <;> rw [e] <;> nofun⟩

end Sys2Proof.Machine
end

section
/-!
PROOFS. The properties family (46_properties.md): the encoder's outputs and the decoder's runs over them, from the
reset state and through the whole machine.
-/

namespace Sys2Proof.Machine

/-! ### Frames through the whole machine -/

/-- A good frame's events: the dispatch with the Dispatcher's frames, then the ACK (R93). -/
theorem perform_dispatch_ack_of_ok (c n : Byte) (p : List Byte) {s : State} (h : s.nextRepliesOk) :
    perform [.dispatch c n p, .resp 0x06#8] s =
      .next { s with
        replies := s.replies.tail
        sink := s.sink ++ framesBytes (s.replies.headD []) ++ [0x06#8]
        log := s.log ++ .dispatch c n p :: framesEvents (s.replies.headD []) ++ [.resp 0x06#8] } := by
  rw [perform_dispatch, dispatch_of_ok c n p h, andThen_next, afterDispatch_eq]
  rfl

/-- A whole frame in the decoder's reset state: only its events are left to perform. -/
theorem deliverBytes_frameBytes (c k : Byte) {p : List Byte} {s : State} (hs : s.dec = Decoder.reset)
    (hp : p.length ≤ 10) :
    deliverBytes (frameBytes c p k) s =
      perform
        (if k = frameChecksum c p then [.dispatch c (lengthByte p) p, .resp 0x06#8] else [.resp 0x15#8]) s := by
  rw [deliverBytes_eq_perform, hs, decRun_frameBytes c k hp]
  exact congrArg (perform _) (hs ▸ withDec_self s)

/-- Settles O35: both rows deliver the frame's bytes, whose last one is the checksum. -/
theorem goodFrameIsDispatched : Obligations.GoodFrameIsDispatched := by
  intro s c p i hs hp hok hi
  have hexec : exec i s = deliverBytes (encodeFrame c p) s := by
    rcases hi with hrow | rfl
    · exact exec_frameRow hrow s
    · exact if_pos hp
  rw [hexec, encodeFrame, deliverBytes_frameBytes c _ hs hp, if_pos rfl, perform_dispatch_ack_of_ok c _ p hok]

/-- Settles O36: both rows deliver the frame's bytes, whose last one is not the checksum. -/
theorem badFrameIsRejected : Obligations.BadFrameIsRejected := by
  intro s c p k i hs hp hk hi
  have hk : k ≠ frameChecksum c p := hk
  have hexec : exec i s = deliverBytes (frameBytes c p k) s := by
    rcases hi with hrow | rfl
    · exact exec_frameRow hrow s
    · exact if_pos ⟨hp, hk⟩
  rw [hexec, deliverBytes_frameBytes c k hs hp, if_neg hk]
  rfl

/-! ### The decoder's run over encoded frames -/

/-- Settles O41: the last byte of an encoded frame is the checksum. -/
theorem encodedFrameRoundTrips : Obligations.EncodedFrameRoundTrips := by
  intro c p hp
  rw [encodeFrame, decRun_frameBytes c _ hp, if_pos rfl]

/-- Settles O46: the garbage leaves the reset state as it is. -/
theorem garbageIsSkipped : Obligations.GarbageIsSkipped := by
  intro g c p hg hp
  rw [decRun_append_of_silent (decRun_reset_of_markerFree hg), encodedFrameRoundTrips c p hp]

/-- Settles O48, by induction on the list of frames: each one ends in the reset state again. -/
theorem consecutiveFramesIndependent : Obligations.ConsecutiveFramesIndependent := by
  refine ⟨decRun_append, fun fs hfs => ?_⟩
  induction fs with
  | nil => rfl
  | cons f fs ih =>
    obtain ⟨⟨hg, hp⟩, hrest⟩ := List.forall_mem_cons.mp hfs
    rw [List.flatMap_cons, List.flatMap_cons, decRun_append, garbageIsSkipped f.1 f.2.1 f.2.2 hg hp, ih hrest]

/-- Settles O42: the lemma holds whatever the last byte. -/
theorem frameInFlightIsSilent : Obligations.FrameInFlightIsSilent :=
  fun c _ _ hp hm => decRun_take_frameBytes c _ hp hm

/-! ### The encoder's outputs -/

theorem length_frameBytes (c k : Byte) (p : List Byte) : (frameBytes c p k).length = 4 + p.length := by
  simp [frameBytes, Nat.add_comm 4]

/-- Bytes of a frame's shape are well formed exactly with the checksum as their last byte (30_encoding.md R50). -/
theorem wellFormedFrame_frameBytes_iff (c k : Byte) {p : List Byte} (h : p.length ≤ 10) :
    wellFormedFrame (frameBytes c p k) = true ↔ k = frameChecksum c p := by
  simp [frameBytes, wellFormedFrame, frameChecksum, checksum, byteSum, toNat_lengthByte h, maxPayload_eq, h,
    Nat.add_assoc]

/-- Well-formed bytes have a frame's shape. -/
theorem exists_frameBytes_of_wellFormed {f : List Byte} (h : wellFormedFrame f = true) :
    ∃ c p k, p.length ≤ 10 ∧ frameBytes c p k = f := by
  unfold wellFormedFrame at h
  split at h
  case h_2 => cases h
  case h_1 m c n rest =>
    simp only [Bool.and_eq_true, beq_iff_eq, decide_eq_true_eq] at h
    obtain ⟨⟨⟨hm, hn⟩, hlen⟩, -⟩ := h
    obtain ⟨i, hi⟩ := exists_frameRow c (rest.getLastD 0#8) (rest.take n.toNat)
      ((List.length_take_le _ _).trans hn)
    obtain ⟨c', p, k, hrow, hf⟩ := frameBytes_of_decodeFrame (bs := m :: c :: n :: rest) (i := i)
      (by rw [decodeFrame, if_pos ⟨hm, hn, hlen⟩, hi])
    exact ⟨c', p, k, length_le_of_frameRow hrow, hf⟩

theorem frameBytes_inj {c c' k k' : Byte} {p p' : List Byte} (h : frameBytes c p k = frameBytes c' p' k') :
    c = c' ∧ p = p' ∧ k = k' := by
  simp only [frameBytes, List.cons.injEq, true_and] at h
  obtain ⟨hc, -, htail⟩ := h
  obtain ⟨hp, hk⟩ := List.append_inj' htail rfl
  exact ⟨hc, hp, List.singleton_inj.mp hk⟩

/-- Settles O40: a frame's shape with the checksum as its last byte, read in both directions. -/
theorem encoderOutputs : Obligations.EncoderOutputs := by
  refine ⟨fun c p hp => ⟨length_frameBytes c _ p, rfl, wellFormedFrame_encodeFrame c hp⟩,
    fun c c' p p' _ _ h => ?_, fun f hf => ?_⟩
  · obtain ⟨hc, hp, -⟩ := frameBytes_inj h
    exact ⟨hc, hp⟩
  · obtain ⟨c, p, k, hp, rfl⟩ := exists_frameBytes_of_wellFormed hf
    exact ⟨c, p, hp, congrArg (frameBytes c p) ((wellFormedFrame_frameBytes_iff c k hp).mp hf)⟩

/-! ### One changed byte -/

theorem frameBytes_set_command (c k x : Byte) (p : List Byte) : (frameBytes c p k).set 1 x = frameBytes x p k := rfl

theorem frameBytes_set_payload (c k x : Byte) {p : List Byte} {i : Nat} (h : i < p.length) :
    (frameBytes c p k).set (3 + i) x = frameBytes c (p.set i x) k := by
  rw [Nat.add_comm, frameBytes, frameBytes, lengthByte, lengthByte, List.length_set, ← List.set_append_left _ _ h]
  rfl

theorem frameBytes_set_checksum (c k x : Byte) (p : List Byte) :
    (frameBytes c p k).set (3 + p.length) x = frameBytes c p x := by
  have htail : (p ++ [k]).set p.length x = p ++ [x] := by simp
  rw [Nat.add_comm, frameBytes, frameBytes, ← htail]
  rfl

/-- 41_checksum.md R88, item 1: a changed payload byte changes the checksum. -/
theorem checksum_set_ne (sm c n x : Byte) {p : List Byte} {i : Nat} (hi : i < p.length) (hx : p[i] ≠ x) :
    checksum sm c n (p.set i x) ≠ checksum sm c n p := by
  rw [List.set_eq_take_append_cons_drop, if_pos hi]
  have hsplit : p = p.take i ++ p[i] :: p.drop (i + 1) := by simp
  conv_rhs => rw [hsplit]
  exact (checksum_payload_byte_bijective sm c n _ _).injective.ne hx.symm

/-- A frame with one such byte changed has a frame's shape still, with a wrong last byte. -/
theorem exists_frameBytes_of_set {c x : Byte} {p : List Byte} {j : Nat} (hj : j = 1 ∨ (3 ≤ j ∧ j ≤ 3 + p.length))
    (hx : (encodeFrame c p)[j]? ≠ some x) :
    ∃ c' p' k, (encodeFrame c p).set j x = frameBytes c' p' k ∧ p'.length = p.length ∧
      k ≠ frameChecksum c' p' := by
  rcases hj with rfl | ⟨h3, hj⟩
  · have hne : c ≠ x := fun e => hx (congrArg some e)
    exact ⟨x, p, _, frameBytes_set_command c _ x p, rfl, (checksum_command_injective _ _ p).ne hne⟩
  · obtain ⟨i, rfl⟩ := Nat.exists_eq_add_of_le h3
    have hbyte : (encodeFrame c p)[3 + i]? = (p ++ [frameChecksum c p])[i]? := by
      rw [Nat.add_comm]
      rfl
    rw [hbyte] at hx
    rcases Nat.lt_or_eq_of_le (Nat.le_of_add_le_add_left hj) with hi | rfl
    · have hne : p[i] ≠ x := by simpa [List.getElem?_append_left hi, List.getElem?_eq_getElem hi] using hx
      refine ⟨c, p.set i x, _, frameBytes_set_payload c _ x hi, List.length_set, ?_⟩
      rw [frameChecksum, frameChecksum, lengthByte, lengthByte, List.length_set]
      exact (checksum_set_ne _ c _ x hi hne).symm
    · have hne : frameChecksum c p ≠ x := by simpa using hx
      exact ⟨c, p, x, frameBytes_set_checksum c _ x p, rfl, hne.symm⟩

/-- Settles O43: the changed frame has a frame's shape with a wrong last byte. -/
theorem oneChangedByteIsRejected : Obligations.OneChangedByteIsRejected := by
  intro c p j x hp hj hx
  obtain ⟨c', p', k, hset, hlen, hk⟩ := exists_frameBytes_of_set hj hx
  have hp' : p'.length ≤ 10 := hlen ▸ hp
  rw [hset]
  exact ⟨by rw [decRun_frameBytes c' k hp', if_neg hk], (decRun_take_frameBytes c' k hp' (by omega)).1⟩

/-! ### The length byte and the marker -/

theorem decStep_of_overLength {d : Decoder} {b : Byte} (hs : d.state = .readLength) (hb : 10 < b.toNat) :
    decStep d b = (Decoder.reset, [.resp 0x15#8]) := by
  rw [decStep_readLength b hs, if_pos hb]

/-- Settles O45: after the marker and a command the decoder is in `ReadLength`. -/
theorem lengthBoundEnforced : Obligations.LengthBoundEnforced := by
  refine ⟨fun d b hs hb => decStep_of_overLength hs hb, fun c b hb => ?_⟩
  rw [decRun_marker_command, decRun_singleton, decStep_of_overLength rfl hb]

/-- Settles O44: the marker's place, then the length byte above 10, below the payload's length and above it. -/
theorem changedMarkerOrLength : Obligations.ChangedMarkerOrLength := by
  intro c p x hp
  have hset : (encodeFrame c p).set 2 x = 0xAA#8 :: c :: x :: (p ++ [frameChecksum c p]) := rfl
  refine ⟨fun hx => decRun_cons_of_silent (decStep_reset_of_ne hx) _, lengthBoundEnforced.2 c x,
    fun hshort => ?_, fun hlong hmax => ?_⟩
  · have htake : (p ++ [frameChecksum c p]).take (x.toNat + 1) = p.take x.toNat ++ [p[x.toNat]] := by
      rw [List.take_append_of_le_length hshort, List.take_succ_eq_append_getElem hshort]
    rw [hset, Nat.add_comm 4, List.take_succ_cons, List.take_succ_cons,
      List.take_succ_cons, htake, decRun_frame c _ (by omega) (List.length_take_of_le hshort.le)]
    simp [hshort]
  · obtain ⟨d, hrun, h⟩ := received_of_reset c (q := p ++ [frameChecksum c p]) hmax (by simpa using hlong)
    rw [hset, hrun]
    exact ⟨rfl, h.state_cases⟩

/-! ### The end of a frame attempt -/

/-- Every transition into `WaitStart` from another state writes every register's reset value (10_state.md R17). -/
theorem decStep_eq_reset_of_waitStart {d : Decoder} (b : Byte) (h : d.state ≠ .waitStart)
    (hw : (decStep d b).1.state = .waitStart) : (decStep d b).1 = Decoder.reset := by
  cases hm : d.malformed with
  | true => rw [decStep_malformed b hm]
  | false =>
    cases hs : d.state with
    | waitStart => exact absurd hs h
    | readCommand => simp [decStep_readCommand b hs] at hw
    | readLength =>
      rw [decStep_readLength b hs] at hw ⊢
      split_ifs at hw ⊢
      rfl
    | readPayload =>
      obtain ⟨hl, hi⟩ := readPayload_bounds hs hm
      rw [decStep_readPayload b hs hl hi] at hw
      split_ifs at hw
    | readChecksum =>
      rw [decStep_readChecksum b hs (readChecksum_bound hs hm)]
      split_ifs <;> rfl
    | code5 | code6 | code7 => simp [Decoder.malformed, hs] at hm

/-- The three rows that emit a response end in the reset state (R78). -/
theorem decStep_eq_reset_of_response {d : Decoder} {b : Byte} (h : responseCount (decStep d b).2 ≠ 0) :
    (decStep d b).1 = Decoder.reset := by
  rcases outputs_decStep d b with hout | ⟨-, hrow | hrow⟩ | ⟨-, hrow, -⟩
  · simp [hout, responseCount] at h
  · rw [decStep_of_rlOver hrow]
  · rw [decStep_of_rkBad hrow]
  · rw [decStep_of_rkOk hrow]

/-- Settles O47, by the cases of the step for a return and by the rows that emit a response. -/
theorem returnIsFullReset : Obligations.ReturnIsFullReset :=
  fun _ b => ⟨decStep_eq_reset_of_waitStart b, decStep_eq_reset_of_response, decStep_malformed b⟩

end Sys2Proof.Machine
end

section
/-!
PROOFS. The exceptions family: the frame of the rows that answer a frame attempt, read off the state each of them
leaves (60_exceptions.md R155, 40_decoder.md R74).
-/

namespace Sys2Proof.Machine

variable {s t : State}

/-! ### What the three rows answer -/

/-- RL.OVER and RK.BAD raise and do nothing else (R155). -/
theorem exec_rejectingRow_eq_next {i : Instr} {b : Byte} (hi : i = .rkBad b ∨ i = .rlOver b)
    (h : exec i s = .next t) : t = (s.withDec Decoder.reset).emit (.resp 0x15#8) := by
  rcases hi with rfl | rfl
  all_goals
    dsimp only [exec, execRkBad, execRlOver, raise_eq] at h
    obtain ⟨-, ht⟩ := whenSelected_eq_next h
    cases ht
    rfl

/-- A dispatch that completes emitted its event and the frames of the Dispatcher's requests (R93). -/
theorem dispatch_eq_next {c n : Byte} {p : List Byte} (h : dispatch c n p s = .next t) :
    t = afterDispatch c n p s := by
  rcases dispatch_cases c n p s with ⟨-, e⟩ | ⟨-, e | e⟩ <;> rw [e] at h <;> cases h
  rfl

/-- RK.OK completes through its dispatch, then acknowledges and clears the packet (R74). -/
theorem exec_rkOk_eq_next {k : Byte} (h : exec (.rkOk k) s = .next t) :
    t = ((afterDispatch s.dec.commandId s.dec.payloadLength s.dec.payloadInUse s).emit
      (.resp 0x06#8)).withDec Decoder.reset := by
  rw [exec, execRkOk] at h
  obtain ⟨-, hrow⟩ := whenSelected_eq_next h
  obtain ⟨u, hu, ht⟩ := andThen_eq_next hrow
  cases ht
  rw [← dispatch_eq_next hu]
  rfl

/-! ### The events of a match -/

/-- What RK.OK appends to the log, with the frames of `rs` made during the dispatch (R74, R121). -/
def matchEvents (d : Decoder) (rs : List EncodeRequest) : List Event :=
  .dispatch d.commandId d.payloadLength d.payloadInUse :: framesEvents rs ++ [.resp 0x06#8]

theorem sinkOf_matchEvents (d : Decoder) (rs : List EncodeRequest) :
    sinkOf (matchEvents d rs) = framesBytes rs ++ [0x06#8] := by
  simp [matchEvents, sinkOf_framesEvents]

/-- The ACK is the only response: the dispatch and the frames are none (R112). -/
theorem responseCount_matchEvents (d : Decoder) (rs : List EncodeRequest) :
    responseCount (matchEvents d rs) = 1 := by
  rw [matchEvents, responseCount_append]
  change responseCount (framesEvents rs) + 1 = 1
  rw [responseCount_framesEvents]

/-! ### The frame -/

/-- Settles O28, by the rows: RK.OK through its dispatch, the other two by raising. -/
theorem answeringRowsFrame : Obligations.AnsweringRowsFrame := by
  rintro i s t ⟨k, rfl | hi⟩ h
  · rw [exec_rkOk_eq_next h]
    refine ⟨rfl, rfl, rfl, fun hne => absurd rfl (hne k), matchEvents s.dec (s.replies.headD []), ?_, ?_,
      responseCount_matchEvents ..⟩
    · simp [matchEvents]
    · simp [sinkOf_matchEvents]
  · rw [exec_rejectingRow_eq_next hi h]
    exact ⟨rfl, rfl, rfl, fun _ => rfl, [.resp 0x15#8], rfl, rfl, rfl⟩

end Sys2Proof.Machine
end

section
/-!
PROOFS. The reset and hazards family: the reset event (70_reset_and_hazards.md R176) and the flush by equal bytes,
counted down by the bytes a frame attempt still takes (R187).
-/

namespace Sys2Proof.Machine

/-! ### The reset event -/

/-- Settles O2: the meaning of RESET writes the decoder's registers and nothing else. -/
theorem resetEventRestoresDecoder : Obligations.ResetEventRestoresDecoder := fun _ => rfl

/-! ### The flush -/

/-- How many bytes of an illegal length value end the frame attempt in progress (R187): in `ReadCommand` one is
taken as the command and the next as the length, in `ReadPayload` the last one is taken as the checksum. No state
of R21 has one of the unused codes. -/
def Decoder.flushBytes (d : Decoder) : Nat :=
  match d.state with
  | .waitStart | .code5 | .code6 | .code7 => 0
  | .readCommand => 2
  | .readLength | .readChecksum => 1
  | .readPayload => d.payloadLength.toNat - d.index.toNat + 1

section Flush

variable {d : Decoder} {v : Byte}

theorem Decoder.Inv.flushBytes_le (h : d.Inv) : d.flushBytes ≤ 11 := by
  obtain ⟨-, htab⟩ := h
  cases hs : d.state with
  | readPayload =>
    simp only [hs, maxPayload_eq] at htab
    simp only [Decoder.flushBytes, hs]
    omega
  | waitStart | readCommand | readLength | readChecksum | code5 | code6 | code7 => simp [Decoder.flushBytes, hs]

/-- Inside a frame attempt a byte above `MAX_PAYLOAD` is either taken silently, with one byte fewer to go, or it is
the last one: it is answered, and the registers are reset. -/
theorem decStep_flush (h : d.Inv) (hs : d.state ≠ .waitStart) (hv : 10 < v.toNat) :
    (∃ d', decStep d v = (d', []) ∧ d'.state ≠ .waitStart ∧ d.flushBytes = d'.flushBytes + 1) ∨
      ((decStep d v).1 = Decoder.reset ∧ responseCount (decStep d v).2 = 1 ∧ d.flushBytes = 1) := by
  obtain ⟨-, htab⟩ := h
  cases hst : d.state with
  | waitStart => exact absurd hst hs
  | readCommand =>
    exact .inl ⟨_, decStep_readCommand v hst, by simp, by simp [Decoder.flushBytes, hst]⟩
  | readLength =>
    rw [decStep_of_overLength hst hv]
    exact .inr ⟨rfl, rfl, by simp [Decoder.flushBytes, hst]⟩
  | readPayload =>
    simp only [hst, maxPayload_eq] at htab
    obtain ⟨-, hlen, hidx, -⟩ := htab
    refine .inl ⟨_, decStep_readPayload v hst hlen hidx, ?_, ?_⟩
    · dsimp only
      split_ifs <;> simp
    · have hnext := toNat_index_succ d.index (by omega)
      by_cases hlast : d.index.toNat + 1 = d.payloadLength.toNat
      · simp only [Decoder.flushBytes, hst, hlast, if_true]
        omega
      · simp only [Decoder.flushBytes, hst, hlast, if_false, hnext]
        omega
  | readChecksum =>
    simp only [hst, maxPayload_eq] at htab
    obtain ⟨-, hlen, -, -⟩ := htab
    rw [decStep_readChecksum v hst hlen]
    refine .inr ⟨?_, ?_, by simp [Decoder.flushBytes, hst]⟩ <;> split_ifs <;> rfl
  | code5 | code6 | code7 => simp [hst] at htab

/-- R187 for a frame attempt: as many bytes as it still takes end it with one response, and the further ones are
skipped in `WaitStart`. -/
theorem decRun_flush (n : Nat) (h : d.Inv) (hs : d.state ≠ .waitStart) (hv : 10 < v.toNat) (hne : v ≠ 0xAA#8)
    (hn : d.flushBytes ≤ n) :
    (decRun d (List.replicate n v)).1 = Decoder.reset ∧
      responseCount (decRun d (List.replicate n v)).2 = 1 := by
  induction n generalizing d with
  | zero => obtain ⟨d', -, -, hmore⟩ | ⟨-, -, hlast⟩ := decStep_flush h hs hv <;> omega
  | succ n ih =>
    rw [List.replicate_succ]
    rcases decStep_flush h hs hv with ⟨d', hstep, hs', hmore⟩ | ⟨hreset, hcount, -⟩
    · have hinv : d'.Inv := by simpa [hstep] using inv_decStep v h
      rw [decRun_cons_of_silent hstep]
      exact ih hinv hs' (by omega)
    · have hskip := decRun_reset_of_markerFree (g := List.replicate n v)
        fun b hb => List.eq_of_mem_replicate hb ▸ hne
      rw [decRun_cons, hreset, hskip, List.append_nil]
      exact ⟨rfl, hcount⟩

end Flush

/-- Settles O49: in `WaitStart` every byte is skipped; a frame attempt takes at most eleven to end. -/
theorem flushReturnsToReset : Obligations.FlushReturnsToReset := by
  intro d v h hv hne
  by_cases hs : d.state = .waitStart
  · have hreset : d = Decoder.reset := by simpa only [hs] using h.2
    rw [if_pos hs, hreset, decRun_reset_of_markerFree fun b hb => List.eq_of_mem_replicate hb ▸ hne]
    exact ⟨rfl, rfl⟩
  · rw [if_neg hs]
    exact decRun_flush 11 h hs hv hne h.flushBytes_le

end Sys2Proof.Machine
end
